-- ==== Sys2Proof/Word.lean ====
section
/-! DEFINITION. The word types of the block: a byte (R14) and the two wider fields of the wire frame and the command port
(R35, R27). -/

namespace Sys2Proof

/-- R14: an unsigned 8-bit value. -/
abbrev Byte := BitVec 8

/-- A 16-bit field: `data_length`, `dlen` (R35, R72). -/
abbrev U16 := BitVec 16

/-- A 32-bit field: a counter, a status register (R26, R27). -/
abbrev U32 := BitVec 32

end Sys2Proof
end

