-- ==== Sys2Proof/Config.lean ====
section
/-! DEFINITION. What an implementation fixes (00_scope.md section 4) and the values the spec leaves unstated.

DESIGN CHOICE (log 1, safe for claims over all states): the parameters are plain data carried by `State`, not global
constants, so that one model is every legal block; no command changes them (R170). -/

namespace Sys2Proof

/-- The parameters of 00_scope.md section 4, each with the spec's default. -/
structure Params where
  /-- P_UNITLEN_FIELD (R5): frames carry the 2-byte data-unit-length field. -/
  unitLenField : Bool := true
  /-- P_BUF_CAP (R9): capacity of BUF in bytes, `none` for ∞. -/
  bufCap : Option Nat := none
  /-- P_MAX_CHUNK (R10): the most bytes one FEED may carry. -/
  maxChunk : Nat := 65535
  /-- P_RETAIN_TAIL (R11): a flush keeps the last byte. -/
  retainTail : Bool := false
  /-- P_ENC_STRICT (R12): ENCODE refuses an inconsistent packet. -/
  encStrict : Bool := true
  deriving DecidableEq, Repr

/-- The parameter values this spec takes (the summary table of 00_scope.md section 4). -/
def Params.default : Params := {}

/-- The contents of a 4-byte result field for a natural that does not fit in 32 bits. The spec states no result there (R17:
a value is taken mod 2^w only where a rule says so), so this is a FREE VALUE: DESIGN CHOICE, log 6, safe. It is applied only
to naturals from 2^32 on (`be32`). -/
opaque Config.unstatedU32 : Nat → U32

/-- BCD of a value above 99, which R93 calls undefined: a FREE VALUE (DESIGN CHOICE, log 20, safe). MKRESP refuses such a value
(R97), so no step reaches it; only the ENCODE of a host's RESPOND line with such a time field holds it. -/
opaque Config.undefinedBcd : Byte → Byte

end Sys2Proof
end

