-- ==== Sys2Proof/Machine/Operands.lean ====
section
/-! DEFINITION. Operand forms: sequences and byte order (R14, R15, R41, R42) and the sizes that follow from the parameters
(R5 to R8, R13). -/

namespace Sys2Proof

/-- `s[a:b]` (R15): the half-open slice. -/
def slice (s : List Byte) (a b : Nat) : List Byte := (s.drop a).take (b - a)

/-- The byte `s[i]` (R15); its users stay below the length, where the default is not reached. -/
def byteAt (s : List Byte) (i : Nat) : Byte := s.getD i 0#8

/-- `u16(s, i)` (R15): two bytes, the high one first. -/
def u16 (s : List Byte) (i : Nat) : Nat := (byteAt s i).toNat * 256 + (byteAt s (i + 1)).toNat

/-- `be16(n)` (R15): bits 15 to 8 of `n`, then bits 7 to 0. -/
def be16 (n : Nat) : List Byte := [BitVec.ofNat 8 (n / 256), BitVec.ofNat 8 n]

/-- The four bytes of a 32-bit field, the most significant first (R42). -/
def be32Bits (v : U32) : List Byte :=
  [BitVec.ofNat 8 (v.toNat / 16777216), BitVec.ofNat 8 (v.toNat / 65536), BitVec.ofNat 8 (v.toNat / 256), BitVec.ofNat 8 v.toNat]

/-- `be32(n)` (R15), for a natural stored in a u32 field. From 2^32 on the spec states no result: a free value (log 6). -/
def be32 (n : Nat) : List Byte := be32Bits (if n < 4294967296 then BitVec.ofNat 32 n else Config.unstatedU32 n)

/-- One byte of the start marker `0x23 0x23` (R13). -/
def markerByte : Byte := 0x23#8

/-- The start marker (R13). -/
def marker : List Byte := [markerByte, markerByte]

/-- P_MAX_DATA (R7). -/
def maxData : Nat := 400

/-- `H`, the header offset (R5). -/
def Params.headerOffset (p : Params) : Nat := if p.unitLenField then 4 else 2

/-- MIN_LEN (R6). -/
def Params.minLen (p : Params) : Nat := p.headerOffset + 23

/-- MAX_FRAME (R8). -/
def Params.maxFrame (p : Params) : Nat := p.headerOffset + 23 + maxData

/-- `keep` of R116 and R117: how many bytes a flush retains. -/
def Params.keep (p : Params) : Nat := if p.retainTail then 1 else 0

/-- Whether a buffer of `n` bytes is within P_BUF_CAP (R9, R23). -/
def Params.fits (p : Params) (n : Nat) : Bool :=
  match p.bufCap with
  | none => true
  | some cap => n ≤ cap

/-- The settings the spec allows (R9: a finite capacity is at least MAX_FRAME; R10). -/
def Params.legal (p : Params) : Bool :=
  (match p.bufCap with
   | none => true
   | some cap => p.maxFrame ≤ cap)
  && 0 < p.maxChunk && p.maxChunk ≤ 65535

end Sys2Proof
end

