-- ==== Sys2Proof/Syntax.lean ====
section
/-! DEFINITION. The commands of the block: one constructor per row of spec/opcode_table.json (R72, R73, R75).

DEDUCED (log 7, safe): the length operands `k` and `plen` are not fields of their own; `b: bytes[k]` and `data: bytes[plen]`
(R72) make them the lengths of the byte strings. -/

namespace Sys2Proof

/-- A command and its operands. -/
inductive Instr where
  /-- `0x00`, format F0 (R140). -/
  | nop
  /-- `0x01`, format FB (R110): `b` is the chunk, `k` its length. -/
  | feed (b : List Byte)
  /-- `0x02`, format F0 (R113). -/
  | drain
  /-- `0x03`, format FB (R130): `b` is the chunk, `k` its length. -/
  | decode (b : List Byte)
  /-- `0x10`, format FE (R94): `plen` is the length of `data`. -/
  | encode (cmd ack : Byte) (vin : List Byte) (enc : Byte) (dlen : U16) (data : List Byte)
  /-- `0x11`, format FR (R97). -/
  | mkresp (code cmd : Byte) (vin : List Byte) (yy mo dd hh mi ss : Byte)
  /-- `0x12`, format FB (R98): `b` is the string to fold, `k` its length. -/
  | csum (b : List Byte)
  /-- `0x20`, format FX (R141). -/
  | rdreg (idx : Byte)
  /-- `0x21`, format F0 (R142). -/
  | clrcnt
  /-- `0xFF`, format F0 (R143). -/
  | reset
  /-- An unassigned opcode of `0x04..0x0F` (R75, R144). -/
  | illegalLow (op : Byte)
  /-- An unassigned opcode of `0x13..0x1F` (R75, R144). -/
  | illegalMid (op : Byte)
  /-- An unassigned opcode of `0x22..0xFE` (R75, R144). -/
  | illegalHigh (op : Byte)
  deriving DecidableEq, Repr

end Sys2Proof
end

