-- ==== Sys2Proof/WellFormed.lean ====
section
/-! DEFINITION. Which terms of `Instr` are commands: the bounds that the formats of R72 and the opcode ranges of R75 put on
the operands. -/

namespace Sys2Proof

/-- A byte string whose length fits the 16-bit length operand of formats FB and FE (R72). -/
def fitsU16 (b : List Byte) : Bool := b.length < 65536

/-- R13, R100: the VIN is exactly 17 bytes wide. -/
def isVin (vin : List Byte) : Bool := vin.length == 17

/-- The operands are ones the command's format can hold. -/
def Instr.wellFormed : Instr → Bool
  | .nop => true
  | .feed b => fitsU16 b
  | .drain => true
  | .decode b => fitsU16 b
  | .encode _ _ vin _ _ data => isVin vin && fitsU16 data
  | .mkresp _ _ vin _ _ _ _ _ _ => isVin vin
  | .csum b => fitsU16 b
  | .rdreg _ => true
  | .clrcnt => true
  | .reset => true
  | .illegalLow op => 0x04#8 ≤ op && op ≤ 0x0F#8
  | .illegalMid op => 0x13#8 ≤ op && op ≤ 0x1F#8
  | .illegalHigh op => 0x22#8 ≤ op && op ≤ 0xFE#8

end Sys2Proof
end

