-- ==== Sys2Proof/Decode.lean ====
section
/-! DEFINITION. The command port's reading of bytes (R70 to R76) and, after it, the encoder written from the same tables.

The decoder is total: the bytes at the port either begin with a whole command, or say by name what is still missing (R76).
No byte is refused: an unassigned opcode is a one-byte command (R75). -/

namespace Sys2Proof

/-- What a partial command at the port still lacks (R76). -/
inductive Missing where
  /-- No opcode byte has arrived. -/
  | opcode
  /-- The operands of fixed length, the length operand among them, have not all arrived. -/
  | operands
  /-- Fewer bytes have arrived than the length operand says. -/
  | payload
  deriving DecidableEq, Repr

/-- What the port finds in the bytes it holds. -/
inductive Parse where
  /-- A whole command, and the bytes behind it. -/
  | command (i : Instr) (rest : List Byte)
  /-- A partial command (R76). -/
  | needMore (what : Missing)
  deriving DecidableEq, Repr

/-- Format FB (R72): `k: u16`, `b: bytes[k]`. -/
def decodeFB (mk : List Byte → Instr) (ops : List Byte) : Parse :=
  if ops.length < 2 then .needMore .operands
  else
    let k := u16 ops 0
    let r := ops.drop 2
    if r.length < k then .needMore .payload else .command (mk (r.take k)) (r.drop k)

/-- Format FE (R72): 24 bytes up to and including `plen` (R76, C11), then the payload. -/
def decodeFE (ops : List Byte) : Parse :=
  if ops.length < 24 then .needMore .operands
  else
    let plen := u16 ops 22
    let r := ops.drop 24
    if r.length < plen then .needMore .payload
    else
      .command
        (.encode (byteAt ops 0) (byteAt ops 1) (slice ops 2 19) (byteAt ops 19) (BitVec.ofNat 16 (u16 ops 20)) (r.take plen))
        (r.drop plen)

/-- Format FR (R72): 25 bytes. -/
def decodeFR (ops : List Byte) : Parse :=
  if ops.length < 25 then .needMore .operands
  else
    .command
      (.mkresp (byteAt ops 0) (byteAt ops 1) (slice ops 2 19) (byteAt ops 19) (byteAt ops 20) (byteAt ops 21) (byteAt ops 22)
        (byteAt ops 23) (byteAt ops 24))
      (ops.drop 25)

/-- Format FX (R72): one byte. -/
def decodeFX (ops : List Byte) : Parse :=
  match ops with
  | [] => .needMore .operands
  | idx :: rest => .command (.rdreg idx) rest

/-- R75: the three ranges of unassigned opcodes; the caller has taken out the assigned ones. -/
def decodeUnassigned (op : Byte) : Instr :=
  if op ≤ 0x0F#8 then .illegalLow op else if op ≤ 0x1F#8 then .illegalMid op else .illegalHigh op

/-- The opcode map (R73): the command that the bytes at the port begin with, or what is missing of it. -/
def decodeCmd : List Byte → Parse
  | [] => .needMore .opcode
  | op :: ops =>
    if op = 0x00#8 then .command .nop ops
    else if op = 0x01#8 then decodeFB .feed ops
    else if op = 0x02#8 then .command .drain ops
    else if op = 0x03#8 then decodeFB .decode ops
    else if op = 0x10#8 then decodeFE ops
    else if op = 0x11#8 then decodeFR ops
    else if op = 0x12#8 then decodeFB .csum ops
    else if op = 0x20#8 then decodeFX ops
    else if op = 0x21#8 then .command .clrcnt ops
    else if op = 0xFF#8 then .command .reset ops
    else .command (decodeUnassigned op) ops

/-- The operand bytes of format FB (R72). -/
def encodeFB (b : List Byte) : List Byte := be16 b.length ++ b

/-- The bytes of a command (R70 to R73). -/
def encodeCmd : Instr → List Byte
  | .nop => [0x00#8]
  | .feed b => 0x01#8 :: encodeFB b
  | .drain => [0x02#8]
  | .decode b => 0x03#8 :: encodeFB b
  | .encode cmd ack vin enc dlen data =>
      0x10#8 :: ([cmd, ack] ++ vin ++ [enc] ++ be16 dlen.toNat ++ be16 data.length ++ data)
  | .mkresp code cmd vin yy mo dd hh mi ss => 0x11#8 :: ([code, cmd] ++ vin ++ [yy, mo, dd, hh, mi, ss])
  | .csum b => 0x12#8 :: encodeFB b
  | .rdreg idx => [0x20#8, idx]
  | .clrcnt => [0x21#8]
  | .reset => [0xFF#8]
  | .illegalLow op => [op]
  | .illegalMid op => [op]
  | .illegalHigh op => [op]

/-- How many bytes the command takes that begins with `bs`, bytes not given counting as 0 (R72, R76). -/
def commandLength (bs : List Byte) : Nat :=
  let op := byteAt bs 0
  if op = 0x01#8 ∨ op = 0x03#8 ∨ op = 0x12#8 then 3 + u16 bs 1
  else if op = 0x10#8 then 25 + u16 bs 23
  else if op = 0x11#8 then 26
  else if op = 0x20#8 then 2
  else 1

/-- The `n` bytes of a number, the first the least significant, as spec/opcode_table.json numbers a command's bits. -/
def bytesOfNat : Nat → Nat → List Byte
  | 0, _ => []
  | n + 1, w => BitVec.ofNat 8 w :: bytesOfNat n (w / 256)

/-- The bytes of a command whose first `nbits` bits are `w` and whose other bits are 0: exactly one command's bytes. -/
def tableBytes (nbits w : Nat) : List Byte :=
  let bs := bytesOfNat (nbits / 8) w
  let n := commandLength bs
  (bs ++ List.replicate n 0#8).take n

/-- The command the port reads from a word of spec/opcode_table.json. -/
def decodeTableWord (nbits w : Nat) : Option Instr :=
  match decodeCmd (tableBytes nbits w) with
  | .command i _ => some i
  | .needMore _ => none

end Sys2Proof
end

