-- ==== Sys2Proof/Machine/State.lean ====
section
/-! DEFINITION. What the machine holds: everything 10_state.md gives the block, the bytes the command port holds (R38), the
parameters (00_scope.md section 4), and two lists of the model's own, the host's coming actions and the responses that have
left the block. All plain data. -/

namespace Sys2Proof.Machine

/-- STOP (R25): why the last DRAIN ended. The four values of the 2-bit field each have a name. -/
inductive Stop where
  /-- 0 NONE: no DRAIN has completed since reset. -/
  | none
  /-- 1 SHORT: `LEN < MIN_LEN` at the loop head. -/
  | short
  /-- 2 PARTIAL: a frame at the front of BUF is longer than LEN. -/
  | partialFrame
  /-- 3 FLUSHED: no start marker, buffer flushed. -/
  | flushed
  deriving DecidableEq, Repr

/-- Why the machine would stop. The block has no traps (R160) and no byte sequence makes it fault, hang or become unusable
(R131), so there is no constructor: nothing raises a fault. -/
inductive Fault
  deriving DecidableEq, Repr

/-- Why a command would have no meaning in the model. -/
inductive Refusal where
  /-- Raised by an arm of `exec` whose command has no meaning yet; no arm is left that raises it. Safe: the run ends. -/
  | notModelled (mnemonic : String)
  deriving DecidableEq, Repr

/-- What the host can do to the block next (R76, R166, R170). -/
inductive HostEvent where
  /-- A byte arrives at the command port. -/
  | byte (b : Byte)
  /-- Power is lost and comes back: power-on reset. -/
  | powerOn
  deriving DecidableEq, Repr

/-- The decoder's state (R19, R22 to R26). -/
structure Decoder where
  /-- BUF (R22), `buf[0]` the oldest byte. LEN (R23) is its length. -/
  buf : List Byte
  /-- STOP (R25). -/
  stop : Stop
  /-- CNT_PKT (R26). -/
  cntPkt : U32
  /-- CNT_CSUM (R26). -/
  cntCsum : U32
  /-- CNT_OVER (R26). -/
  cntOver : U32
  /-- CNT_FLUSH (R26). -/
  cntFlush : U32
  /-- CNT_SKIPB (R26). -/
  cntSkipb : U32
  deriving DecidableEq, Repr

/-- R37: the decoder after power-on and after RESET. -/
def Decoder.reset : Decoder :=
  { buf := [], stop := .none, cntPkt := 0, cntCsum := 0, cntOver := 0, cntFlush := 0, cntSkipb := 0 }

/-- The machine. The serializer holds no state (R34). -/
structure State where
  /-- The parameters, fixed when the block is built (R170; log 1). -/
  params : Params
  /-- The decoder (R19). -/
  dec : Decoder
  /-- The bytes at the command port that no executed command has taken, oldest first (R38, R76). -/
  port : List Byte
  /-- The host's coming actions, oldest first: the model's own field (log 3). -/
  inbox : List HostEvent
  /-- The responses that have left the block, oldest first, each the bytes of one response (R51, R71): the model's own
  field (log 5). -/
  tx : List (List Byte)
  deriving DecidableEq, Repr

/-- R37, R170: the machine after power-on, with the parameters at the spec's defaults, nothing at the port, and a host that
has done and will do nothing. -/
def State.reset : State :=
  { params := Params.default, dec := Decoder.reset, port := [], inbox := [], tx := [] }

end Sys2Proof.Machine
end

