-- ==== Sys2Proof/Machine/Records.lean ====
section
/-! DEFINITION. The values that leave the block (R35, R71, R74, R77, R78) and their bytes at the port. -/

namespace Sys2Proof.Machine

/-- The non-OK statuses (R74). -/
inductive CmdError where
  /-- FULL: the chunk does not fit in P_BUF_CAP (R112). -/
  | full
  /-- PRECOND: a strict-mode precondition of ENCODE failed (R95). -/
  | precond
  /-- BADARG: a chunk above P_MAX_CHUNK, or a time field above 99 (R111, R97). -/
  | badarg
  /-- ILLEGAL: an unassigned opcode (R144). -/
  | illegal
  deriving DecidableEq, Repr

/-- A packet record (R35). -/
structure Packet where
  commandFlag : Byte
  ackFlag : Byte
  vin : List Byte
  encryptMode : Byte
  dataLength : U16
  data : List Byte
  verify : Byte
  deriving DecidableEq, Repr

/-- A record of a DRAIN response (R77). -/
inductive Record where
  /-- PKT: a delivered packet (R126). -/
  | pkt (p : Packet)
  /-- FRAMING: a flush, the bytes removed and the bytes kept (R116, R151). -/
  | framing (flushed retained : Nat)
  /-- OVERSIZE: the `N` read and the bytes removed (R121, R152). -/
  | oversize (dlen : U16) (discarded : Nat)
  /-- CSUMERR: the computed and the received checksum and `N` (R125, R153). -/
  | csumErr (computed received : Byte) (dlen : U16)
  deriving DecidableEq, Repr

/-- The result fields of an OK response (R73). -/
inductive Result where
  /-- No result fields. -/
  | empty
  /-- DRAIN and DECODE: the stop reason and the records. -/
  | drained (stop : Stop) (records : List Record)
  /-- ENCODE: one frame. -/
  | frame (bytes : List Byte)
  /-- MKRESP: one packet record. -/
  | packet (p : Packet)
  /-- CSUM: the XOR. -/
  | xor (x : Byte)
  /-- RDREG: a register's value. -/
  | value (v : U32)
  deriving DecidableEq, Repr

/-- A response (R71): only OK carries result fields. -/
inductive Response where
  | ok (r : Result)
  | error (e : CmdError)
  deriving DecidableEq, Repr

/-- The recognised `ack_flag` values (R13, R65); any other byte is legal and uninterpreted. -/
inductive AckFlag where
  | success
  | fail
  | notAck
  deriving DecidableEq, Repr

/-- The `encrypt_mode` values (R13, R65). -/
inductive EncryptMode where
  | none
  | rsa
  | aes
  | error
  | invalid
  deriving DecidableEq, Repr

/-- R13. -/
def AckFlag.byte : AckFlag → Byte
  | .success => 0x01#8
  | .fail => 0x02#8
  | .notAck => 0xFE#8

/-- R65: which recognised value an `ack_flag` byte is, if any. -/
def AckFlag.ofByte (b : Byte) : Option AckFlag :=
  if b = 0x01#8 then some .success else if b = 0x02#8 then some .fail else if b = 0xFE#8 then some .notAck else Option.none

/-- R13. -/
def EncryptMode.byte : EncryptMode → Byte
  | .none => 0x01#8
  | .rsa => 0x02#8
  | .aes => 0x03#8
  | .error => 0xFE#8
  | .invalid => 0xFF#8

/-- R65: which value an `encrypt_mode` byte is, if any. -/
def EncryptMode.ofByte (b : Byte) : Option EncryptMode :=
  if b = 0x01#8 then some .none else if b = 0x02#8 then some .rsa else if b = 0x03#8 then some .aes
  else if b = 0xFE#8 then some .error else if b = 0xFF#8 then some .invalid else Option.none

/-- The status byte of OK (R74). -/
def statusOk : Byte := 0x00#8

/-- The status byte of a command error (R74). -/
def CmdError.code : CmdError → Byte
  | .full => 0x01#8
  | .precond => 0x02#8
  | .badarg => 0x03#8
  | .illegal => 0x04#8

/-- The value of STOP as its two bits (R25). -/
def Stop.code : Stop → BitVec 2
  | .none => 0
  | .short => 1
  | .partialFrame => 2
  | .flushed => 3

/-- A packet record on the port (R78). -/
def Packet.bytes (p : Packet) : List Byte :=
  [p.commandFlag, p.ackFlag] ++ p.vin ++ [p.encryptMode] ++ be16 p.dataLength.toNat ++ p.data ++ [p.verify]

/-- A record on the port: its tag and its body (R77). -/
def Record.bytes : Record → List Byte
  | .pkt p => 0x01#8 :: p.bytes
  | .framing flushed retained => 0x02#8 :: (be32 flushed ++ [BitVec.ofNat 8 retained])
  | .oversize dlen discarded => 0x03#8 :: (be16 dlen.toNat ++ be32 discarded)
  | .csumErr computed received dlen => 0x04#8 :: ([computed, received] ++ be16 dlen.toNat)

/-- The result fields on the port (R73). -/
def Result.bytes : Result → List Byte
  | .empty => []
  | .drained stop records => stop.code.setWidth 8 :: (be32 records.length ++ records.flatMap Record.bytes)
  | .frame bytes => be32 bytes.length ++ bytes
  | .packet p => p.bytes
  | .xor x => [x]
  | .value v => be32Bits v

/-- A response on the port: the status byte, then the result fields (R71). -/
def Response.bytes : Response → List Byte
  | .ok r => statusOk :: r.bytes
  | .error e => [e.code]

/-- The packets among the records, in order: what a host hands to its packet handler (R77, R132). -/
def packetsOf (rs : List Record) : List Packet :=
  rs.filterMap fun r => match r with
    | .pkt p => some p
    | .framing _ _ => Option.none
    | .oversize _ _ => Option.none
    | .csumErr _ _ _ => Option.none

end Sys2Proof.Machine
end

