-- ==== Sys2Proof/Machine/Checksum.lean ====
section
/-! DEFINITION. The functions the two engines share (40_packet_model.md section 1): the XOR checksum, the data unit, the
time encoding, and when a packet record is valid (R36). -/

namespace Sys2Proof.Machine

/-- XOR8 (R90): the XOR fold of a byte string, 0 for the empty one. -/
def xor8 (s : List Byte) : Byte := s.foldl (· ^^^ ·) 0#8

/-- The data unit of a packet's fields, in order (R61, R91). -/
def dataUnit (cmd ack : Byte) (vin : List Byte) (enc : Byte) (dlen : U16) (data : List Byte) : List Byte :=
  [cmd, ack] ++ vin ++ [enc] ++ be16 dlen.toNat ++ data

/-- `du(P)` (R91). -/
def Packet.dataUnit (p : Packet) : List Byte :=
  Machine.dataUnit p.commandFlag p.ackFlag p.vin p.encryptMode p.dataLength p.data

/-- R36: when a packet record is valid. -/
def Packet.valid (p : Packet) : Bool :=
  p.vin.length == 17 && p.dataLength.toNat == p.data.length && p.data.length ≤ maxData && p.verify == xor8 p.dataUnit

/-- BCD (R93): the two decimal digits of a value up to 99 as the two hexadecimal digits of a byte.
R93 defines no other: a free value (log 20). -/
def bcd (v : Byte) : Byte :=
  if v.toNat ≤ 99 then BitVec.ofNat 8 (v.toNat / 10 * 16 + v.toNat % 10) else Config.undefinedBcd v

/-- BCD6 (R93). -/
def bcd6 (yy mo dd hh mi ss : Byte) : List Byte := [bcd yy, bcd mo, bcd dd, bcd hh, bcd mi, bcd ss]

end Sys2Proof.Machine
end

