-- ==== Sys2Proof/Machine/Ops.lean ====
section
/-! DEFINITION. The shared operations: answering a command (R71), failing one (R160), the buffer primitives of R16, the marker
search (R115), and what the host's actions do to the block (R76, R170).

The block has no trap entry and no trap return (R160): `fail` is its one way of ending a command without effect. -/

namespace Sys2Proof.Machine

/-- How a command ends: its one response leaves the block (R71), in the order of the commands (R51). -/
def respond (r : Response) (s : State) : Host.Outcome State Fault Refusal := .next { s with tx := s.tx ++ [r.bytes] }

/-- A command error (R160): the state is the state before the command, and the response is the status byte alone. -/
def fail (e : CmdError) (s : State) : Host.Outcome State Fault Refusal := respond (.error e) s

/-- `BufAppend(s)` (R16). -/
def Decoder.append (d : Decoder) (b : List Byte) : Decoder := { d with buf := d.buf ++ b }

/-- `BufDrop(n)` (R16): up to `n` bytes leave the front. -/
def Decoder.dropFront (d : Decoder) (n : Nat) : Decoder := { d with buf := d.buf.drop n }

/-- `first_marker` (R115): the least offset at which two bytes `0x23` stand side by side. -/
def firstMarker : List Byte → Option Nat
  | a :: b :: rest => if a = markerByte ∧ b = markerByte then some 0 else (firstMarker (b :: rest)).map (· + 1)
  | _ => none

/-- Power-on reset (R170): decoder state to its reset values, the command port emptied, the parameters as built. -/
def powerOnReset (s : State) : State := { s with dec := Decoder.reset, port := [] }

/-- What one action of the host does. A byte is held at the port until its command is whole (R76). -/
def applyEvent (e : HostEvent) (s : State) : State :=
  match e with
  | .byte b => { s with port := s.port ++ [b] }
  | .powerOn => powerOnReset s

/-- The block waits (R76, R172, U19): the host's next action happens, or, when there is none, nothing does. -/
def awaitHost (s : State) : State :=
  match s.inbox with
  | [] => s
  | e :: es => applyEvent e { s with inbox := es }

end Sys2Proof.Machine
end

