-- ==== Sys2Proof/Machine/Serializer.lean ====
section
/-! DEFINITION. The serializer (40_packet_model.md): ENCODE, MKRESP and CSUM. None reads or writes decoder state (R34). -/

namespace Sys2Proof.Machine

/-- R95: what strict mode refuses. -/
def encodeRefused (p : Params) (dlen : U16) (plen : Nat) : Bool :=
  p.encStrict && (dlen.toNat != plen || maxData < plen)

/-- The bytes before the data unit (R60, R94, R96): the start marker and, when the layout has it, the data-unit length. -/
def frameHeader (p : Params) (dlen : U16) : List Byte :=
  marker ++ (if p.unitLenField then be16 ((22 + dlen.toNat) % 65536) else [])

/-- The frame of a packet's fields (R60, R94). -/
def encodeFrame (p : Params) (cmd ack : Byte) (vin : List Byte) (enc : Byte) (dlen : U16) (data : List Byte) : List Byte :=
  let du := dataUnit cmd ack vin enc dlen data
  frameHeader p dlen ++ du ++ [xor8 du]

/-- R97: a time field that BCD does not cover. -/
def badTime (yy mo dd hh mi ss : Byte) : Bool := [yy, mo, dd, hh, mi, ss].any fun v => 99 < v.toNat

/-- The acknowledgement packet (R97). -/
def makeResponse (code cmd : Byte) (vin : List Byte) (yy mo dd hh mi ss : Byte) : Packet :=
  let data := bcd6 yy mo dd hh mi ss
  { commandFlag := cmd
    ackFlag := code
    vin := vin
    encryptMode := EncryptMode.none.byte
    dataLength := 6#16
    data := data
    verify := xor8 (dataUnit cmd code vin EncryptMode.none.byte 6#16 data) }

/-- ENCODE (R94 to R96). -/
def execEncode (cmd ack : Byte) (vin : List Byte) (enc : Byte) (dlen : U16) (data : List Byte) (s : State) :
    Host.Outcome State Fault Refusal :=
  if encodeRefused s.params dlen data.length then fail .precond s
  else respond (.ok (.frame (encodeFrame s.params cmd ack vin enc dlen data))) s

/-- MKRESP (R97). -/
def execMkresp (code cmd : Byte) (vin : List Byte) (yy mo dd hh mi ss : Byte) (s : State) :
    Host.Outcome State Fault Refusal :=
  if badTime yy mo dd hh mi ss then fail .badarg s
  else respond (.ok (.packet (makeResponse code cmd vin yy mo dd hh mi ss))) s

/-- CSUM (R98). -/
def execCsum (b : List Byte) (s : State) : Host.Outcome State Fault Refusal := respond (.ok (.xor (xor8 b))) s

end Sys2Proof.Machine
end

