-- ==== Sys2Proof/Machine/Flags.lean ====
section
/-! DEFINITION. The status register space (R27 to R32) and the counters' arithmetic (R26). Every read of a register goes
through `readReg`, every count through `countUp`. -/

namespace Sys2Proof.Machine

/-- R26: a counter grows by `n`, mod 2^32. -/
def countUp (c : U32) (n : Nat) : U32 := c + BitVec.ofNat 32 n

/-- A 32-bit register that saturates instead of wrapping (R30, R31). -/
def saturate32 (n : Nat) : U32 := BitVec.ofNat 32 (min n 0xFFFFFFFF)

/-- CFG (R28): bit 0 P_UNITLEN_FIELD, bit 1 P_RETAIN_TAIL, bit 2 P_ENC_STRICT, bits 7 to 3 zero, bits 15 to 8 MIN_LEN,
bits 31 to 16 P_MAX_DATA. -/
def cfgValue (p : Params) : U32 :=
  BitVec.ofNat 32
    (p.unitLenField.toNat + 2 * p.retainTail.toNat + 4 * p.encStrict.toNat + 256 * p.minLen + 65536 * maxData)

/-- STAT (R29): STOP, zero-extended. -/
def statValue (d : Decoder) : U32 := d.stop.code.setWidth 32

/-- The LEN register (R30). -/
def lenValue (d : Decoder) : U32 := saturate32 d.buf.length

/-- CAP (R31): ∞ reads `0xFFFFFFFF`. -/
def capValue (p : Params) : U32 :=
  match p.bufCap with
  | none => 0xFFFFFFFF#32
  | some cap => saturate32 cap

/-- The value of a status register (R27, R141); a reserved index reads 0 (R32). -/
def readReg (s : State) (idx : Byte) : U32 :=
  if idx = 0x00#8 then cfgValue s.params
  else if idx = 0x01#8 then statValue s.dec
  else if idx = 0x02#8 then lenValue s.dec
  else if idx = 0x03#8 then s.dec.cntPkt
  else if idx = 0x04#8 then s.dec.cntCsum
  else if idx = 0x05#8 then s.dec.cntOver
  else if idx = 0x06#8 then s.dec.cntFlush
  else if idx = 0x07#8 then s.dec.cntSkipb
  else if idx = 0x08#8 then capValue s.params
  else 0#32

end Sys2Proof.Machine
end

