-- ==== Sys2Proof/Machine/StatusControl.lean ====
section
/-! DEFINITION. Status and control commands (42_status_control.md). -/

namespace Sys2Proof.Machine

/-- The answer to an unassigned opcode (R144). -/
def answerIllegal (s : State) : Host.Outcome State Fault Refusal := fail .illegal s

/-- NOP (R140). -/
def execNop (s : State) : Host.Outcome State Fault Refusal := respond (.ok .empty) s

/-- RDREG (R141). -/
def execRdreg (idx : Byte) (s : State) : Host.Outcome State Fault Refusal := respond (.ok (.value (readReg s idx))) s

/-- CLRCNT (R142): the five counters; BUF and STOP stay. -/
def execClrcnt (s : State) : Host.Outcome State Fault Refusal :=
  respond (.ok .empty)
    { s with dec := { s.dec with cntPkt := 0, cntCsum := 0, cntOver := 0, cntFlush := 0, cntSkipb := 0 } }

/-- RESET (R143, R171): the decoder's reset state; the port and the parameters stay. -/
def execReset (s : State) : Host.Outcome State Fault Refusal := respond (.ok .empty) { s with dec := Decoder.reset }

/-- An unassigned opcode of `0x04..0x0F` (R144). -/
def execIllegalLow (_op : Byte) (s : State) : Host.Outcome State Fault Refusal := answerIllegal s

/-- An unassigned opcode of `0x13..0x1F` (R144). -/
def execIllegalMid (_op : Byte) (s : State) : Host.Outcome State Fault Refusal := answerIllegal s

/-- An unassigned opcode of `0x22..0xFE` (R144). -/
def execIllegalHigh (_op : Byte) (s : State) : Host.Outcome State Fault Refusal := answerIllegal s

end Sys2Proof.Machine
end

