-- ==== Sys2Proof/Machine/StreamDecoder.lean ====
section
/-! DEFINITION. The streaming decoder (41_stream_decoder.md): FEED, DRAIN and DECODE. -/

namespace Sys2Proof.Machine

/-- The checks of FEED on a chunk of `k` bytes, in the order of R110 and R158. -/
def feedError (p : Params) (d : Decoder) (k : Nat) : Option CmdError :=
  if p.maxChunk < k then some .badarg
  else if p.fits (d.buf.length + k) then none
  else some .full

/-- One turn of the DRAIN loop (R113): it ends the DRAIN or goes back to the loop head, and gives the records it emitted. -/
inductive Turn where
  | stopped (d : Decoder) (emitted : List Record)
  | again (d : Decoder) (emitted : List Record)
  deriving DecidableEq, Repr

/-- R114: the buffer is too short to search. -/
def stopShort (d : Decoder) : Turn := .stopped { d with stop := .short } []

/-- R116, R117: no marker in the buffer. -/
def flush (p : Params) (d : Decoder) : Turn :=
  .stopped
    { d.dropFront (d.buf.length - p.keep) with stop := .flushed, cntFlush := countUp d.cntFlush 1 }
    [.framing (d.buf.length - p.keep) p.keep]

/-- R118: the bytes before the first marker go. -/
def skipPrefix (d : Decoder) (off : Nat) : Turn :=
  .again { d.dropFront off with cntSkipb := countUp d.cntSkipb off } []

/-- R121: a header with `N > P_MAX_DATA`; the bytes present of its frame go. -/
def skipOversize (p : Params) (d : Decoder) (n : Nat) : Turn :=
  let discarded := min (p.headerOffset + 23 + n) d.buf.length
  .again { d.dropFront discarded with cntOver := countUp d.cntOver 1 } [.oversize (BitVec.ofNat 16 n) discarded]

/-- R122: the frame at the front is not all there. -/
def stopPartial (d : Decoder) : Turn := .stopped { d with stop := .partialFrame } []

/-- The packet record a frame with `n` payload bytes holds (R126). -/
def framePacket (p : Params) (fr : List Byte) (n : Nat) : Packet :=
  let h := p.headerOffset
  { commandFlag := byteAt fr h
    ackFlag := byteAt fr (h + 1)
    vin := slice fr (h + 2) (h + 19)
    encryptMode := byteAt fr (h + 19)
    dataLength := BitVec.ofNat 16 n
    data := slice fr (h + 22) (h + 22 + n)
    verify := byteAt fr (h + 22 + n) }

/-- R123 to R126: a whole frame leaves the buffer; it is delivered if its checksum matches and dropped if not. -/
def takeFrame (p : Params) (d : Decoder) (n : Nat) : Turn :=
  let h := p.headerOffset
  let total := h + 23 + n
  let fr := d.buf.take total
  let c := xor8 (slice fr h (h + 22 + n))
  let r := byteAt fr (h + 22 + n)
  if c = r then .again { d.dropFront total with cntPkt := countUp d.cntPkt 1 } [.pkt (framePacket p fr n)]
  else .again { d.dropFront total with cntCsum := countUp d.cntCsum 1 } [.csumErr c r (BitVec.ofNat 16 n)]

/-- One turn of the DRAIN loop: the arms in the order of R159. -/
def drainTurn (p : Params) (d : Decoder) : Turn :=
  if d.buf.length < p.minLen then stopShort d
  else
    match firstMarker d.buf with
    | none => flush p d
    | some off =>
      if 0 < off then skipPrefix d off
      else
        let n := u16 d.buf (p.headerOffset + 20)
        if maxData < n then skipOversize p d n
        else if d.buf.length < p.headerOffset + 23 + n then stopPartial d
        else takeFrame p d n

/-- The DRAIN loop, at most `fuel` turns (log 13). -/
def drainLoop (p : Params) : Nat → Decoder → Decoder × List Record
  | 0, d => (d, [])
  | fuel + 1, d =>
    match drainTurn p d with
    | .stopped d' rs => (d', rs)
    | .again d' rs => ((drainLoop p fuel d').1, rs ++ (drainLoop p fuel d').2)

/-- DRAIN (R113) on the decoder: its state afterwards and the records in stream order. The loop ends within `LEN + 1` turns
(R127). -/
def drain (p : Params) (d : Decoder) : Decoder × List Record := drainLoop p (d.buf.length + 1) d

/-- DRAIN as the end of a command: drain, then answer with the stop reason and the records (R113). -/
def drainAndRespond (s : State) : Host.Outcome State Fault Refusal :=
  let r := drain s.params s.dec
  respond (.ok (.drained r.1.stop r.2)) { s with dec := r.1 }

/-- FEED (R110). -/
def execFeed (b : List Byte) (s : State) : Host.Outcome State Fault Refusal :=
  match feedError s.params s.dec b.length with
  | some e => fail e s
  | none => respond (.ok .empty) { s with dec := s.dec.append b }

/-- DRAIN (R113). -/
def execDrain (s : State) : Host.Outcome State Fault Refusal := drainAndRespond s

/-- DECODE (R130): FEED, then DRAIN unless the FEED failed. -/
def execDecode (b : List Byte) (s : State) : Host.Outcome State Fault Refusal :=
  match feedError s.params s.dec b.length with
  | some e => fail e s
  | none => drainAndRespond { s with dec := s.dec.append b }

end Sys2Proof.Machine
end

