-- ==== Sys2Proof/Machine/Dispatch.lean ====
section
/-! DEFINITION. One arm per command: the host reads this file arm by arm. -/

namespace Sys2Proof.Machine

def exec (i : Instr) (s : State) : Host.Outcome State Fault Refusal :=
  match i with
  | .nop => Sys2Proof.Machine.execNop s
  | .feed b => Sys2Proof.Machine.execFeed b s
  | .drain => Sys2Proof.Machine.execDrain s
  | .decode b => Sys2Proof.Machine.execDecode b s
  | .encode cmd ack vin enc dlen data => Sys2Proof.Machine.execEncode cmd ack vin enc dlen data s
  | .mkresp code cmd vin yy mo dd hh mi ss => Sys2Proof.Machine.execMkresp code cmd vin yy mo dd hh mi ss s
  | .csum b => Sys2Proof.Machine.execCsum b s
  | .rdreg idx => Sys2Proof.Machine.execRdreg idx s
  | .clrcnt => Sys2Proof.Machine.execClrcnt s
  | .reset => Sys2Proof.Machine.execReset s
  | .illegalLow op => Sys2Proof.Machine.execIllegalLow op s
  | .illegalMid op => Sys2Proof.Machine.execIllegalMid op s
  | .illegalHigh op => Sys2Proof.Machine.execIllegalHigh op s

end Sys2Proof.Machine
end

