-- ==== Sys2Proof/Machine/Step.lean ====
section
/-! DEFINITION. One step of the block: execute the command at the port if all its bytes have arrived (R76), as one atomic
step (R46), and otherwise wait for the host. -/

namespace Sys2Proof.Machine

/-- The port takes the command's bytes away before the command executes (R54, R76). -/
def step (s : State) : Host.Outcome State Fault Refusal :=
  match decodeCmd s.port with
  | .command i rest => exec i { s with port := rest }
  | .needMore _ => .next (awaitHost s)

/-- `s` with one command's bytes at the command port, where `step` takes its next command from: what the host does by sending
those bytes (log 12). -/
def State.withFetchWord (s : State) (nbits w : Nat) : State := { s with port := tableBytes nbits w }

end Sys2Proof.Machine
end

