-- ==== Sys2Proof/Machine/HostSide.lean ====
section
/-! DEFINITION. What stands on the host's side of the port: the assembler lines and pseudo-instructions that expand to
commands (R80, R81), and the VIN's text conversions, which R66, R100 and R133 leave to the host. Nothing here is part of a step.

R80 is modelled from its operand lists on; how characters are read into them is not (log 15). -/

namespace Sys2Proof.Machine

/-- An item of a byte list (R80). -/
inductive ByteItem where
  /-- A hex byte. -/
  | hex (b : Byte)
  /-- A quoted string, one byte a character. -/
  | text (bytes : List Byte)
  /-- `b*n`: `n` copies of `b`. -/
  | copies (b : Byte) (n : Nat)
  deriving DecidableEq, Repr

/-- The operand of RDREG in assembler (R80): an index or a name. -/
inductive RegName where
  | idx (i : Byte)
  | cfg
  | stat
  | len
  | cntPkt
  | cntCsum
  | cntOver
  | cntFlush
  | cntSkipb
  | cap
  deriving DecidableEq, Repr

/-- One assembler line (R80) or pseudo-instruction (R81). -/
inductive AsmLine where
  | nop
  | feed (b : List ByteItem)
  | drain
  | decode (b : List ByteItem)
  | encode (cmd ack : Byte) (vin : List ByteItem) (enc : Byte) (dlen : Option U16) (data : List ByteItem)
  | mkresp (code cmd : Byte) (vin : List ByteItem) (yy mo dd hh mi ss : Byte)
  | csum (b : List ByteItem)
  | rdreg (r : RegName)
  | clrcnt
  | reset
  /-- `.byte`: raw bytes to the port. -/
  | raw (b : List ByteItem)
  | send (cmd ack : Byte) (vin : List ByteItem) (enc : Byte) (data : List ByteItem)
  | respond (code cmd : Byte) (vin : List ByteItem) (yy mo dd hh mi ss : Byte)
  | loopback (cmd ack : Byte) (vin : List ByteItem) (enc : Byte) (dlen : Option U16) (data : List ByteItem)
  | rdall
  deriving DecidableEq, Repr

/-- The bytes of one item (R80). -/
def ByteItem.bytes : ByteItem → List Byte
  | .hex b => [b]
  | .text bytes => bytes
  | .copies b n => List.replicate n b

/-- The bytes of a byte list (R80). -/
def byteList (items : List ByteItem) : List Byte := items.flatMap ByteItem.bytes

/-- The index a register name stands for (R27, R80). -/
def RegName.index : RegName → Byte
  | .idx i => i
  | .cfg => 0x00#8
  | .stat => 0x01#8
  | .len => 0x02#8
  | .cntPkt => 0x03#8
  | .cntCsum => 0x04#8
  | .cntOver => 0x05#8
  | .cntFlush => 0x06#8
  | .cntSkipb => 0x07#8
  | .cap => 0x08#8

/-- ENCODE in assembler (R80): `dlen` is the payload's length when omitted, mod 2^16 when it does not fit (DESIGN CHOICE, log 19). -/
def encodeLine (cmd ack : Byte) (vin : List ByteItem) (enc : Byte) (dlen : Option U16) (data : List ByteItem) : Instr :=
  .encode cmd ack (byteList vin) enc (dlen.getD (BitVec.ofNat 16 (byteList data).length)) (byteList data)

/-- LOOPBACK (R81): ENCODE, then DECODE of the frame it returns; the ENCODE alone when it returns none (DESIGN CHOICE,
log 15). A frame above 65535 bytes, which no DECODE can carry, still goes into a DECODE (DESIGN CHOICE, log 19). -/
def loopbackLine (p : Params) (cmd ack : Byte) (vin : List ByteItem) (enc : Byte) (dlen : Option U16)
    (data : List ByteItem) : List Instr :=
  let n := dlen.getD (BitVec.ofNat 16 (byteList data).length)
  encodeLine cmd ack vin enc dlen data ::
    (if encodeRefused p n (byteList data).length then []
     else [.decode (encodeFrame p cmd ack (byteList vin) enc n (byteList data))])

/-- RESPOND (R81): MKRESP, then ENCODE of the same acknowledgement. With a time field above 99, for which R93 defines no BCD and
MKRESP answers BADARG, the ENCODE is sent too, with a free value as that byte of its payload (DESIGN CHOICE, log 20). -/
def respondLine (code cmd : Byte) (vin : List ByteItem) (yy mo dd hh mi ss : Byte) : List Instr :=
  [.mkresp code cmd (byteList vin) yy mo dd hh mi ss,
   .encode cmd code (byteList vin) EncryptMode.none.byte 6#16 (bcd6 yy mo dd hh mi ss)]

/-- RDALL (R81): registers 0 to 8 in index order. -/
def rdallLine : List Instr := (List.range 9).map fun i => .rdreg (BitVec.ofNat 8 i)

/-- The bytes a line sends to the port of a block with parameters `p` (R80, R81). A line whose operands no command can hold, a
byte list above 65535 bytes or a VIN of other than 17, sends them all the same: `be16` of the length (R15) and then all the bytes
(DESIGN CHOICE, log 19). -/
def AsmLine.portBytes (p : Params) : AsmLine → List Byte
  | .nop => encodeCmd .nop
  | .feed b => encodeCmd (.feed (byteList b))
  | .drain => encodeCmd .drain
  | .decode b => encodeCmd (.decode (byteList b))
  | .encode cmd ack vin enc dlen data => encodeCmd (encodeLine cmd ack vin enc dlen data)
  | .mkresp code cmd vin yy mo dd hh mi ss => encodeCmd (.mkresp code cmd (byteList vin) yy mo dd hh mi ss)
  | .csum b => encodeCmd (.csum (byteList b))
  | .rdreg r => encodeCmd (.rdreg r.index)
  | .clrcnt => encodeCmd .clrcnt
  | .reset => encodeCmd .reset
  | .raw b => byteList b
  | .send cmd ack vin enc data => encodeCmd (encodeLine cmd ack vin enc none data)
  | .respond code cmd vin yy mo dd hh mi ss => (respondLine code cmd vin yy mo dd hh mi ss).flatMap encodeCmd
  | .loopback cmd ack vin enc dlen data => (loopbackLine p cmd ack vin enc dlen data).flatMap encodeCmd
  | .rdall => rdallLine.flatMap encodeCmd

/-- The host's 17 bytes for a VIN text (R66, R100): padded on the right with `'0'`; a longer text has none. -/
def vinOfText (text : List Byte) : Option (List Byte) :=
  if text.length ≤ 17 then some (text ++ List.replicate (17 - text.length) 0x30#8) else none

/-- The host's text view of a delivered VIN (R133): trailing `0x00` bytes stripped. -/
def textOfVin (vin : List Byte) : List Byte := (vin.reverse.dropWhile (· == 0x00#8)).reverse

end Sys2Proof.Machine
end

