-- ==== Sys2Proof/Safety.lean ====
section
/-! DEFINITION. What claims about runs speak of: the two invariants of the block, and streams fed in chunks (R178). -/

namespace Sys2Proof.Machine

/-- R23: LEN is within P_BUF_CAP. -/
def State.withinCap (s : State) : Bool := s.params.fits s.dec.buf.length

/-- R76: the port holds at most one command: without its last byte, what it holds is a partial command. -/
def State.portHoldsOne (s : State) : Bool :=
  match decodeCmd s.port.dropLast with
  | .command _ _ => false
  | .needMore _ => true

/-- A stream fed in chunks, with a DRAIN after each: the decoder afterwards and all records (R178). -/
def drainChunks (p : Params) : Decoder → List (List Byte) → Decoder × List Record
  | d, [] => (d, [])
  | d, b :: bs =>
    let r := drain p (d.append b)
    let q := drainChunks p r.1 bs
    (q.1, r.2 ++ q.2)

/-- R175: a DRAIN of `x` that ends in a flush removes a trailing `0x23` that the next byte of the stream pairs. -/
def splitsMarker (p : Params) (x : Decoder) (later : List Byte) : Bool :=
  (drain p x).1.stop == .flushed && !p.retainTail && x.buf.getLast? == some markerByte && later.head? == some markerByte

/-- R176: every oversize skip among the records removed the whole of its frame. -/
def skipsWhole (p : Params) (rs : List Record) : Bool :=
  rs.all fun r => match r with
    | .pkt _ => true
    | .framing _ _ => true
    | .oversize dlen discarded => discarded == p.headerOffset + 23 + dlen.toNat
    | .csumErr _ _ _ => true

/-- R178: in the chunked run neither hazard happens. -/
def hazardFree (p : Params) : Decoder → List (List Byte) → Bool
  | _, [] => true
  | d, b :: bs =>
    let x := d.append b
    !splitsMarker p x bs.flatten && skipsWhole p (drain p x).2 && hazardFree p (drain p x).1 bs

/-- How many bytes of the buffer a record accounts for (R116, R121, R123). -/
def Record.consumed (p : Params) : Record → Nat
  | .pkt q => p.headerOffset + 23 + q.dataLength.toNat
  | .framing flushed _ => flushed
  | .oversize _ discarded => discarded
  | .csumErr _ _ dlen => p.headerOffset + 23 + dlen.toNat

/-- The commands of the serializer (R34, R50). -/
def isSerializer : Instr → Bool
  | .encode _ _ _ _ _ _ => true
  | .mkresp _ _ _ _ _ _ _ _ _ => true
  | .csum _ => true
  | .nop => false
  | .feed _ => false
  | .drain => false
  | .decode _ => false
  | .rdreg _ => false
  | .clrcnt => false
  | .reset => false
  | .illegalLow _ => false
  | .illegalMid _ => false
  | .illegalHigh _ => false

end Sys2Proof.Machine
end

