-- ==== Sys2Proof/Certificates/Slice0/Obligations.lean ====
section
/-! DEFINITION. The statements for the provers, from the numbered rules of spec/. Each docstring names what the statement
formalises; where it rests on a choice of the model, it names the log entry. -/

open Sys2Proof Sys2Proof.Machine

/-! ## Encoding (30_encoding.md sections 2 and 3) -/

/-- Words written out from R72 and R73: each is the command it stands for. -/
def Obligations.SampleWordsDecode : Prop :=
  decodeCmd [0x01#8, 0x00#8, 0x02#8, 0x23#8, 0xFF#8, 0x02#8] = .command (.feed [0x23#8, 0xFF#8]) [0x02#8] ∧
  decodeCmd [0x12#8, 0x00#8, 0x00#8] = .command (.csum []) [] ∧
  decodeCmd [0x20#8, 0x08#8, 0x21#8] = .command (.rdreg 0x08#8) [0x21#8] ∧
  decodeCmd [0x13#8, 0x00#8] = .command (.illegalMid 0x13#8) [0x00#8] ∧
  decodeCmd ([0x11#8, 0x01#8, 0x05#8] ++ List.replicate 17 0x30#8 ++ [0x19#8, 0x03#8, 0x0E#8, 0x09#8, 0x1A#8, 0x35#8]) =
    .command (.mkresp 0x01#8 0x05#8 (List.replicate 17 0x30#8) 25#8 3#8 14#8 9#8 26#8 53#8) []

/-- R70, R72, R73: the port reads back every command, with every operand at every value, and leaves the bytes behind it. -/
def Obligations.DecodeEncodeRoundTrip : Prop :=
  ∀ (i : Instr) (rest : List Byte), i.wellFormed = true → decodeCmd (encodeCmd i ++ rest) = .command i rest

/-- R70, R73, R75: what the port reads is a well-formed command, and its bytes are exactly that command's. -/
def Obligations.DecodedBytesAreTheCommand : Prop :=
  ∀ (bs rest : List Byte) (i : Instr), decodeCmd bs = .command i rest → i.wellFormed = true ∧ bs = encodeCmd i ++ rest

/-- R76: while bytes of a command are missing, the port has no command to execute. -/
def Obligations.PartialCommandIsHeld : Prop :=
  ∀ (i : Instr) (n : Nat), i.wellFormed = true → n < (encodeCmd i).length →
    ∃ w, decodeCmd ((encodeCmd i).take n) = .needMore w

/-- R75, R144: an unassigned opcode is a one-byte command answered ILLEGAL, it changes nothing else, and the byte after it is
the next command's opcode. -/
def Obligations.UnassignedOpcodesAnswerIllegal : Prop :=
  (∀ (s : State) (op : Byte) (rest : List Byte),
    ((0x04#8 ≤ op ∧ op ≤ 0x0F#8) ∨ (0x13#8 ≤ op ∧ op ≤ 0x1F#8) ∨ (0x22#8 ≤ op ∧ op ≤ 0xFE#8)) →
    s.port = op :: rest → step s = .next { s with port := rest, tx := s.tx ++ [[0x04#8]] }) ∧
  ∀ (s : State) (op : Byte),
    exec (.illegalLow op) s = .next { s with tx := s.tx ++ [[0x04#8]] } ∧
    exec (.illegalMid op) s = .next { s with tx := s.tx ++ [[0x04#8]] } ∧
    exec (.illegalHigh op) s = .next { s with tx := s.tx ++ [[0x04#8]] }

/-! ## The step (R46, R76, R170) -/

/-- R46, R76: when the bytes at the port begin with a command, the step executes it, its bytes gone from the port. -/
def Obligations.StepRunsDecodedCommand : Prop :=
  ∀ (s : State) (i : Instr) (rest : List Byte), decodeCmd s.port = .command i rest →
    step s = exec i { s with port := rest }

/-- R76, U19: with no whole command at the port the block waits: a byte that arrives is held at the port, a power-on resets,
and with no action of the host nothing changes. The host's actions as a list are the model's choice (log 2, log 3, log 4). -/
def Obligations.StepWaitsForTheHost : Prop :=
  ∀ (s : State) (w : Missing), decodeCmd s.port = .needMore w →
    (s.inbox = [] → step s = .next s) ∧
    (∀ (b : Byte) (es : List HostEvent), s.inbox = .byte b :: es →
      step s = .next { s with port := s.port ++ [b], inbox := es }) ∧
    ∀ es : List HostEvent, s.inbox = .powerOn :: es →
      step s = .next { s with dec := Decoder.reset, port := [], inbox := es }

/-- R170: power-on reset gives the decoder the values of R37 and empties the port; neither it nor any command changes the
parameters. What it leaves of `inbox` and `tx` is the model's choice (log 5). -/
def Obligations.PowerOnResetsTheBlock : Prop :=
  (∀ s : State, powerOnReset s =
    { s with
      dec := { buf := [], stop := .none, cntPkt := 0, cntCsum := 0, cntOver := 0, cntFlush := 0, cntSkipb := 0 }
      port := [] }) ∧
  ∀ (i : Instr) (s t : State), exec i s = .next t → t.params = s.params

/-- R131: every state takes a step, FEED answers OK, FULL or BADARG, and DRAIN answers OK. -/
def Obligations.DecoderIsTotal : Prop :=
  (∀ s : State, ∃ t, step s = .next t) ∧
  (∀ (s : State) (b : List Byte), ∃ (t : State) (st : Byte),
    exec (.feed b) s = .next t ∧ t.tx = s.tx ++ [[st]] ∧ (st = 0x00#8 ∨ st = 0x01#8 ∨ st = 0x03#8)) ∧
  ∀ s : State, ∃ (t : State) (res : List Byte), exec .drain s = .next t ∧ t.tx = s.tx ++ [0x00#8 :: res]

/-! ## Status and control (42_status_control.md, 10_state.md) -/

/-- R140. -/
def Obligations.NopAnswersOk : Prop :=
  ∀ (s : State) (rest : List Byte),
    decodeCmd (0x00#8 :: rest) = .command .nop rest ∧ exec .nop s = .next { s with tx := s.tx ++ [[0x00#8]] }

/-- R141, R29 to R32: RDREG answers OK and the register's four bytes, and writes nothing. -/
def Obligations.RdregReadsTheRegister : Prop :=
  ∀ s : State,
    let value (v : U32) : Host.Outcome State Fault Refusal := .next { s with tx := s.tx ++ [0x00#8 :: be32Bits v] }
    (∀ (idx : Byte) (rest : List Byte), decodeCmd (0x20#8 :: idx :: rest) = .command (.rdreg idx) rest) ∧
    exec (.rdreg 0x00#8) s = value (cfgValue s.params) ∧
    exec (.rdreg 0x01#8) s = value (s.dec.stop.code.setWidth 32) ∧
    exec (.rdreg 0x02#8) s = value (BitVec.ofNat 32 (min s.dec.buf.length 0xFFFFFFFF)) ∧
    exec (.rdreg 0x03#8) s = value s.dec.cntPkt ∧
    exec (.rdreg 0x04#8) s = value s.dec.cntCsum ∧
    exec (.rdreg 0x05#8) s = value s.dec.cntOver ∧
    exec (.rdreg 0x06#8) s = value s.dec.cntFlush ∧
    exec (.rdreg 0x07#8) s = value s.dec.cntSkipb ∧
    (s.params.bufCap = none → exec (.rdreg 0x08#8) s = value 0xFFFFFFFF#32) ∧
    (∀ cap, s.params.bufCap = some cap → exec (.rdreg 0x08#8) s = value (BitVec.ofNat 32 (min cap 0xFFFFFFFF))) ∧
    ∀ idx : Byte, 0x09#8 ≤ idx → exec (.rdreg idx) s = value 0#32

/-- R28: the fields of CFG, its two values the rule writes out, and that no step changes it. -/
def Obligations.CfgReportsTheParameters : Prop :=
  (∀ p : Params,
    (cfgValue p).getLsbD 0 = p.unitLenField ∧
    (cfgValue p).getLsbD 1 = p.retainTail ∧
    (cfgValue p).getLsbD 2 = p.encStrict ∧
    (cfgValue p).extractLsb' 3 5 = 0#5 ∧
    (cfgValue p).extractLsb' 8 8 = BitVec.ofNat 8 p.minLen ∧
    (cfgValue p).extractLsb' 16 16 = 0x0190#16 ∧
    p.minLen = (if p.unitLenField then 27 else 25)) ∧
  cfgValue Params.default = 0x01901B05#32 ∧
  cfgValue { Params.default with unitLenField := false } = 0x01901904#32 ∧
  ∀ s t : State, step s = .next t → cfgValue t.params = cfgValue s.params

/-- R142. -/
def Obligations.ClrcntClearsTheCounters : Prop :=
  ∀ (s : State) (rest : List Byte),
    decodeCmd (0x21#8 :: rest) = .command .clrcnt rest ∧
    exec .clrcnt s = .next
      { s with
        dec := { buf := s.dec.buf, stop := s.dec.stop, cntPkt := 0, cntCsum := 0, cntOver := 0, cntFlush := 0, cntSkipb := 0 }
        tx := s.tx ++ [[0x00#8]] }

/-- R143, R171: RESET gives the decoder the values of R37, leaves the port and the parameters, and is the same decoder state
as power-on; a byte `0xFF` among operands is operand data. -/
def Obligations.ResetGivesResetState : Prop :=
  ∀ (s : State) (rest : List Byte),
    decodeCmd (0xFF#8 :: rest) = .command .reset rest ∧
    decodeCmd (0x01#8 :: 0x00#8 :: 0x01#8 :: 0xFF#8 :: rest) = .command (.feed [0xFF#8]) rest ∧
    (∃ t, exec .reset s = .next t ∧ t =
      { s with
        dec := { buf := [], stop := .none, cntPkt := 0, cntCsum := 0, cntOver := 0, cntFlush := 0, cntSkipb := 0 }
        tx := s.tx ++ [[0x00#8]] } ∧
      t.dec = (powerOnReset s).dec)

/-- R37: the state after power-on and after RESET. -/
def Obligations.ResetStateIsAsStated : Prop :=
  ∀ s t : State, (t = powerOnReset s ∨ exec .reset s = .next t) →
    t.dec.buf = [] ∧ t.dec.buf.length = 0 ∧ t.dec.stop = .none ∧ t.dec.stop.code = 0#2 ∧ t.dec.cntPkt = 0 ∧
    t.dec.cntCsum = 0 ∧ t.dec.cntOver = 0 ∧ t.dec.cntFlush = 0 ∧ t.dec.cntSkipb = 0 ∧
    readReg t 0x00#8 = cfgValue s.params ∧ readReg t 0x08#8 = capValue s.params ∧
    ∀ idx : Byte, 0x09#8 ≤ idx → readReg t idx = 0#32

/-- The core's state after reset is that of R37 and R170 with nothing at the port (R172), and CFG and CAP read as R27 says with
default parameters. That it has the default parameters, an idle host and no responses behind it is the model's choice
(log 1, log 3, log 5). -/
def Obligations.CoreResetIsPowerOnWithDefaults : Prop :=
  Sys2Proof.core.reset = State.reset ∧ powerOnReset State.reset = State.reset ∧
  State.reset = { params := Params.default, dec := Decoder.reset, port := [], inbox := [], tx := [] } ∧
  readReg State.reset 0x00#8 = 0x01901B05#32 ∧ readReg State.reset 0x08#8 = 0xFFFFFFFF#32

/-! ## FEED (R110 to R112) -/

/-- R110: the encoding of FEED and its three outcomes, in the order of its checks. -/
def Obligations.FeedAppendsOrRefuses : Prop :=
  ∀ (s : State) (b rest : List Byte),
    (b.length < 65536 → decodeCmd (0x01#8 :: be16 b.length ++ b ++ rest) = .command (.feed b) rest) ∧
    (s.params.maxChunk < b.length → exec (.feed b) s = .next { s with tx := s.tx ++ [[0x03#8]] }) ∧
    (b.length ≤ s.params.maxChunk → s.params.fits (s.dec.buf.length + b.length) = false →
      exec (.feed b) s = .next { s with tx := s.tx ++ [[0x01#8]] }) ∧
    (b.length ≤ s.params.maxChunk → s.params.fits (s.dec.buf.length + b.length) = true →
      exec (.feed b) s = .next { s with dec := { s.dec with buf := s.dec.buf ++ b }, tx := s.tx ++ [[0x00#8]] })

/-- R111: the BADARG check, and that it never fires with the default P_MAX_CHUNK on a command the port can read. -/
def Obligations.FeedRefusesLongChunks : Prop :=
  (∀ (s : State) (b : List Byte), s.params.maxChunk < b.length →
    exec (.feed b) s = .next { s with tx := s.tx ++ [[0x03#8]] }) ∧
  ∀ (s t : State) (bs b rest : List Byte), s.params.maxChunk = 65535 → decodeCmd bs = .command (.feed b) rest →
    exec (.feed b) s = .next t → t.tx ≠ s.tx ++ [[0x03#8]]

/-- R112 (with R158: BADARG comes first): the FULL check, that it never fires with `P_BUF_CAP = ∞`, and that a chunk of at
most `P_BUF_CAP - MAX_FRAME + 1` bytes fits directly after a DRAIN. -/
def Obligations.FeedRefusesWhatDoesNotFit : Prop :=
  (∀ (s : State) (b : List Byte) (cap : Nat), s.params.bufCap = some cap → b.length ≤ s.params.maxChunk →
    cap < s.dec.buf.length + b.length → exec (.feed b) s = .next { s with tx := s.tx ++ [[0x01#8]] }) ∧
  (∀ (s t : State) (b : List Byte), s.params.bufCap = none → exec (.feed b) s = .next t → t.tx ≠ s.tx ++ [[0x01#8]]) ∧
  ∀ (s t u : State) (b : List Byte) (cap : Nat), s.params.bufCap = some cap → s.params.maxFrame ≤ cap →
    b.length ≤ cap - s.params.maxFrame + 1 → exec .drain s = .next t → exec (.feed b) t = .next u →
    u.tx ≠ t.tx ++ [[0x01#8]]

/-! ## DRAIN (R113 to R129) -/

/-- R115: `first_marker` is the least offset of two marker bytes side by side, and none when there is no such offset; a buffer
shorter than MIN_LEN is not searched. -/
def Obligations.FirstMarkerIsLeast : Prop :=
  (∀ (p : Params) (d : Decoder), d.buf.length < p.minLen → drainTurn p d = .stopped { d with stop := .short } []) ∧
  ∀ (s : List Byte),
    (∀ i, firstMarker s = some i ↔
      (i + 2 ≤ s.length ∧ byteAt s i = 0x23#8 ∧ byteAt s (i + 1) = 0x23#8 ∧
        ∀ j, j < i → ¬(byteAt s j = 0x23#8 ∧ byteAt s (j + 1) = 0x23#8))) ∧
    (firstMarker s = none ↔ ∀ j, j + 2 ≤ s.length → ¬(byteAt s j = 0x23#8 ∧ byteAt s (j + 1) = 0x23#8))

/-- R114: at a loop head with `LEN < MIN_LEN` the DRAIN ends with SHORT, the bytes kept, whatever they are. -/
def Obligations.DrainStopsShort : Prop :=
  (∀ (p : Params) (d : Decoder), d.buf.length < p.minLen → drain p d = ({ d with stop := .short }, [])) ∧
  ∀ s : State, s.dec.buf.length < s.params.minLen →
    exec .drain s =
      .next { s with dec := { s.dec with stop := .short }, tx := s.tx ++ [[0x00#8, 0x01#8, 0#8, 0#8, 0#8, 0#8]] }

/-- R116, with `keep` as R117 gives it: a buffer without a marker is flushed. -/
def Obligations.DrainFlushes : Prop :=
  ∀ s : State, s.params.minLen ≤ s.dec.buf.length → firstMarker s.dec.buf = none →
    let keep := if s.params.retainTail then 1 else 0
    let flushed := s.dec.buf.length - keep
    (s.params.retainTail = true → s.dec.buf.drop flushed = [byteAt s.dec.buf (s.dec.buf.length - 1)]) ∧
    (s.params.retainTail = false → s.dec.buf.drop flushed = []) ∧
    24 ≤ flushed ∧ s.params.minLen - 1 ≤ flushed ∧
    drain s.params s.dec =
      ({ s.dec with buf := s.dec.buf.drop flushed, stop := .flushed, cntFlush := s.dec.cntFlush + 1 },
        [.framing flushed keep]) ∧
    exec .drain s =
      .next
        { s with
          dec := { s.dec with buf := s.dec.buf.drop flushed, stop := .flushed, cntFlush := s.dec.cntFlush + 1 }
          tx := s.tx ++ [[0x00#8, 0x03#8, 0#8, 0#8, 0#8, 1#8, 0x02#8] ++ be32 flushed ++ [BitVec.ofNat 8 keep]] }

/-- R118: the bytes before the first marker go, are counted, and no record is emitted; what is left starts with the marker. -/
def Obligations.DrainDiscardsPrefix : Prop :=
  ∀ (p : Params) (d : Decoder) (off : Nat), p.minLen ≤ d.buf.length → firstMarker d.buf = some off → 0 < off →
    (∃ rest, d.buf.drop off = 0x23#8 :: 0x23#8 :: rest) ∧
    drain p d = drain p { d with buf := d.buf.drop off, cntSkipb := d.cntSkipb + BitVec.ofNat 32 off }

/-- R121: a header with `N > P_MAX_DATA` is skipped at once, with the bytes present of its frame, and the loop goes on. -/
def Obligations.DrainSkipsOversize : Prop :=
  ∀ (p : Params) (d : Decoder), p.minLen ≤ d.buf.length → firstMarker d.buf = some 0 →
    let n := u16 d.buf (p.headerOffset + 20)
    let gone := min (p.headerOffset + 23 + n) d.buf.length
    let d' := { d with buf := d.buf.drop gone, cntOver := d.cntOver + 1 }
    400 < n →
      p.minLen ≤ gone ∧
      drain p d = ((drain p d').1, .oversize (BitVec.ofNat 16 n) gone :: (drain p d').2)

/-- R122: a frame that is not all there stays in the buffer, and the DRAIN ends with PARTIAL. -/
def Obligations.DrainStopsPartial : Prop :=
  ∀ s : State, s.params.minLen ≤ s.dec.buf.length → firstMarker s.dec.buf = some 0 →
    u16 s.dec.buf (s.params.headerOffset + 20) ≤ 400 →
    s.dec.buf.length < s.params.headerOffset + 23 + u16 s.dec.buf (s.params.headerOffset + 20) →
    drain s.params s.dec = ({ s.dec with stop := .partialFrame }, []) ∧
    exec .drain s =
      .next { s with dec := { s.dec with stop := .partialFrame }, tx := s.tx ++ [[0x00#8, 0x02#8, 0#8, 0#8, 0#8, 0#8]] }

/-- R125: a whole frame whose checksum byte is wrong is removed, reported and not delivered, and the loop goes on. `u` is the
data-unit-length field, of whatever value (R67). -/
def Obligations.DrainDropsBadChecksum : Prop :=
  ∀ (p : Params) (d : Decoder) (u vin data rest : List Byte) (cmd ack enc r : Byte),
    u.length = p.headerOffset - 2 → vin.length = 17 → data.length ≤ 400 →
    d.buf = [0x23#8, 0x23#8] ++ u ++ ([cmd, ack] ++ vin ++ [enc] ++ be16 data.length ++ data) ++ [r] ++ rest →
    let c := xor8 ([cmd, ack] ++ vin ++ [enc] ++ be16 data.length ++ data)
    let d' := { d with buf := rest, cntCsum := d.cntCsum + 1 }
    c ≠ r → drain p d = ((drain p d').1, .csumErr c r (BitVec.ofNat 16 data.length) :: (drain p d').2)

/-- R126 (with R67, R123, R124): a whole frame with the right checksum byte is delivered, field by field, and the loop goes
on. `u` is the data-unit-length field, of whatever value. -/
def Obligations.DrainDeliversPacket : Prop :=
  ∀ (p : Params) (d : Decoder) (u vin data rest : List Byte) (cmd ack enc r : Byte),
    u.length = p.headerOffset - 2 → vin.length = 17 → data.length ≤ 400 →
    d.buf = [0x23#8, 0x23#8] ++ u ++ ([cmd, ack] ++ vin ++ [enc] ++ be16 data.length ++ data) ++ [r] ++ rest →
    let d' := { d with buf := rest, cntPkt := d.cntPkt + 1 }
    let q : Packet :=
      { commandFlag := cmd, ackFlag := ack, vin := vin, encryptMode := enc, dataLength := BitVec.ofNat 16 data.length,
        data := data, verify := r }
    xor8 ([cmd, ack] ++ vin ++ [enc] ++ be16 data.length ++ data) = r →
      q.valid = true ∧ drain p d = ((drain p d').1, .pkt q :: (drain p d').2)

/-- R79, R113: DRAIN answers OK, the stop reason it wrote (never 0), the number of records and the records; it changes the
decoder and nothing else. A DECODE that answers OK gives the stop reason it wrote too, and is a
DRAIN of the buffer with its chunk appended. The records' bytes are written out from R77 and R78. -/
def Obligations.DrainAnswersStopAndRecords : Prop :=
  (∀ (s t : State) (b : List Byte), exec (.decode b) s = .next t →
    t.tx = s.tx ++ [[0x01#8]] ∨ t.tx = s.tx ++ [[0x03#8]] ∨
    (t.dec.stop ≠ .none ∧ (∃ result, t.tx = s.tx ++ [0x00#8 :: t.dec.stop.code.setWidth 8 :: result]) ∧
      exec (.decode b) s = exec .drain { s with dec := { s.dec with buf := s.dec.buf ++ b } })) ∧
  ∀ (s : State) (rest : List Byte),
    let r := drain s.params s.dec
    let records := r.2.flatMap fun x => match x with
      | .pkt q =>
        [0x01#8, q.commandFlag, q.ackFlag] ++ q.vin ++ [q.encryptMode] ++ be16 q.dataLength.toNat ++ q.data ++ [q.verify]
      | .framing flushed retained => [0x02#8] ++ be32 flushed ++ [BitVec.ofNat 8 retained]
      | .oversize dlen discarded => [0x03#8] ++ be16 dlen.toNat ++ be32 discarded
      | .csumErr computed received dlen => [0x04#8, computed, received] ++ be16 dlen.toNat
    decodeCmd (0x02#8 :: rest) = .command .drain rest ∧
    ∃ stop : Byte,
      ((r.1.stop = .short ∧ stop = 0x01#8) ∨ (r.1.stop = .partialFrame ∧ stop = 0x02#8) ∨
        (r.1.stop = .flushed ∧ stop = 0x03#8)) ∧
      exec .drain s =
        .next { s with dec := r.1, tx := s.tx ++ [[0x00#8, stop] ++ be32 r.2.length ++ records] }

/-- R128: the buffer after a DRAIN, by stop reason. -/
def Obligations.BufferAfterDrain : Prop :=
  ∀ (p : Params) (d : Decoder),
    let e := (drain p d).1
    let n := u16 e.buf (p.headerOffset + 20)
    (e.stop = .short → e.buf.length < p.minLen) ∧
    (e.stop = .partialFrame →
      byteAt e.buf 0 = 0x23#8 ∧ byteAt e.buf 1 = 0x23#8 ∧ n ≤ 400 ∧ p.minLen ≤ e.buf.length ∧
      e.buf.length < p.headerOffset + 23 + n ∧ p.headerOffset + 23 + n ≤ p.maxFrame) ∧
    (e.stop = .flushed → e.buf.length = if p.retainTail then 1 else 0) ∧
    e.buf.length ≤ p.maxFrame - 1

/-- R129: a DRAIN directly after a DRAIN emits no record and changes nothing but STOP, which goes from FLUSHED to SHORT. -/
def Obligations.SecondDrainDoesNothing : Prop :=
  ∀ (s t : State), exec .drain s = .next t →
    ∃ stop : Stop,
      (stop = if t.dec.stop = .partialFrame then .partialFrame else .short) ∧
      exec .drain t = .next
        { t with dec := { t.dec with stop := stop }, tx := t.tx ++ [[0x00#8, stop.code.setWidth 8, 0#8, 0#8, 0#8, 0#8]] }

/-- R127: a turn that goes on removes bytes, at least MIN_LEN of them with a record; the loop ends within `LEN + 1` turns, with
at most `LEN div MIN_LEN + 1` records. -/
def Obligations.DrainEnds : Prop :=
  ∀ (p : Params) (d : Decoder),
    (∀ d' rs, drainTurn p d = .again d' rs →
      d'.buf.length < d.buf.length ∧ (rs ≠ [] → d'.buf.length + p.minLen ≤ d.buf.length)) ∧
    (∀ fuel, d.buf.length + 1 ≤ fuel → drainLoop p fuel d = drain p d) ∧
    (drain p d).2.length ≤ d.buf.length / p.minLen + 1

/-- R36: every packet a DRAIN delivers and every packet MKRESP returns is valid. -/
def Obligations.PacketsAreValid : Prop :=
  (∀ q : Packet, q.valid = true ↔
    (q.vin.length = 17 ∧ q.dataLength.toNat = q.data.length ∧ q.data.length ≤ 400 ∧
      q.verify = xor8 ([q.commandFlag, q.ackFlag] ++ q.vin ++ [q.encryptMode] ++ be16 q.dataLength.toNat ++ q.data))) ∧
  (∀ (p : Params) (d : Decoder) (q : Packet), .pkt q ∈ (drain p d).2 → q.valid = true) ∧
  ∀ (s t : State) (code cmd yy mo dd hh mi ss : Byte) (vin : List Byte), vin.length = 17 →
    exec (.mkresp code cmd vin yy mo dd hh mi ss) s = .next t →
    t.tx = s.tx ++ [[0x03#8]] ∨ ∃ q : Packet, q.valid = true ∧ t.tx = s.tx ++ [0x00#8 :: q.bytes]

/-- R22: bytes enter BUF at the back, by FEED, and leave it from the front, by DRAIN. -/
def Obligations.BufferIsAQueue : Prop :=
  (∀ (s t : State) (b : List Byte), exec (.feed b) s = .next t → t.dec.buf = s.dec.buf ∨ t.dec.buf = s.dec.buf ++ b) ∧
  (∀ (s t : State), exec .drain s = .next t → ∃ n, t.dec.buf = s.dec.buf.drop n) ∧
  ∀ (s t : State) (b : List Byte), exec (.decode b) s = .next t →
    t.dec.buf = s.dec.buf ∨ ∃ n, t.dec.buf = (s.dec.buf ++ b).drop n

/-- R151 to R153: what the event records of a DRAIN carry; a FRAMING record is the last one. -/
def Obligations.EventRecordsCarryTheirCause : Prop :=
  ∀ (p : Params) (d : Decoder),
    (∀ (before after : List Record) (flushed retained : Nat),
      (drain p d).2 = before ++ .framing flushed retained :: after →
      after = [] ∧ retained = (if p.retainTail then 1 else 0) ∧ p.minLen ≤ flushed + retained ∧
        (drain p d).1.stop = .flushed ∧ (drain p d).1.buf.length = retained) ∧
    (∀ (n : U16) (gone : Nat), .oversize n gone ∈ (drain p d).2 →
      400 < n.toNat ∧ p.minLen ≤ gone ∧ gone ≤ p.headerOffset + 23 + n.toNat) ∧
    ∀ (c r : Byte) (n : U16), .csumErr c r n ∈ (drain p d).2 → c ≠ r ∧ n.toNat ≤ 400

/-- R26: a DRAIN adds to each counter the number of its records, mod 2^32, and to CNT_SKIPB the bytes removed that no record
accounts for; so every byte removed is accounted for. -/
def Obligations.CountersCountRecords : Prop :=
  ∀ (p : Params) (d : Decoder),
    let e := (drain p d).1
    let rs := (drain p d).2
    let reported := (rs.map (Record.consumed p)).sum
    e.cntPkt = d.cntPkt + BitVec.ofNat 32 (packetsOf rs).length ∧
    e.cntCsum = d.cntCsum +
      BitVec.ofNat 32 (rs.countP fun r => match r with | .csumErr _ _ _ => true | _ => false) ∧
    e.cntOver = d.cntOver +
      BitVec.ofNat 32 (rs.countP fun r => match r with | .oversize _ _ => true | _ => false) ∧
    e.cntFlush = d.cntFlush +
      BitVec.ofNat 32 (rs.countP fun r => match r with | .framing _ _ => true | _ => false) ∧
    ∃ skipped, e.cntSkipb = d.cntSkipb + BitVec.ofNat 32 skipped ∧
      d.buf.length = e.buf.length + reported + skipped

/-- R26, R25: neither the counters nor STOP is read by the decoder: what a DRAIN emits and leaves in BUF and STOP depends on
BUF alone. -/
def Obligations.DrainReadsOnlyTheBuffer : Prop :=
  ∀ (p : Params) (d e : Decoder), d.buf = e.buf →
    (drain p d).2 = (drain p e).2 ∧ (drain p d).1.buf = (drain p e).1.buf ∧ (drain p d).1.stop = (drain p e).1.stop

/-- R178: a stream fed in any chunks with a DRAIN after each delivers the same packets as fed in one chunk, unless a flush
splits a marker (R175) or an oversize skip is partial (R176). -/
def Obligations.ChunkingKeepsThePackets : Prop :=
  ∀ (p : Params) (d : Decoder) (b : List Byte) (bs : List (List Byte)), hazardFree p d (b :: bs) = true →
    packetsOf (drainChunks p d (b :: bs)).2 = packetsOf (drain p (d.append (b :: bs).flatten)).2

/-! ## DECODE (R130) -/

/-- R130: DECODE is FEED and then DRAIN; when the FEED fails, its status is the answer and nothing changes. With `k = 0` it is
a DRAIN, of a buffer within P_BUF_CAP (R23). -/
def Obligations.DecodeIsFeedThenDrain : Prop :=
  ∀ (s : State) (b rest : List Byte),
    let r := drain s.params { s.dec with buf := s.dec.buf ++ b }
    (b.length < 65536 → decodeCmd (0x03#8 :: be16 b.length ++ b ++ rest) = .command (.decode b) rest) ∧
    (s.params.maxChunk < b.length → exec (.decode b) s = .next { s with tx := s.tx ++ [[0x03#8]] }) ∧
    (b.length ≤ s.params.maxChunk → s.params.fits (s.dec.buf.length + b.length) = false →
      exec (.decode b) s = .next { s with tx := s.tx ++ [[0x01#8]] }) ∧
    (b.length ≤ s.params.maxChunk → s.params.fits (s.dec.buf.length + b.length) = true →
      exec (.decode b) s = exec .drain { s with dec := { s.dec with buf := s.dec.buf ++ b } } ∧
      exec (.decode b) s = .next
        { s with
          dec := r.1
          tx := s.tx ++ [[0x00#8, r.1.stop.code.setWidth 8] ++ be32 r.2.length ++ r.2.flatMap Record.bytes] }) ∧
    (s.params.fits s.dec.buf.length = true → exec (.decode []) s = exec .drain s)

/-! ## The serializer (40_packet_model.md) -/

/-- R90: the XOR fold, its value on the empty string and on the marker, and that order and splitting do not matter. -/
def Obligations.XorFoldLaws : Prop :=
  xor8 [] = 0x00#8 ∧
  xor8 [0x23#8, 0x23#8] = 0x00#8 ∧
  (∀ (s : List Byte) (b : Byte), xor8 (s ++ [b]) = xor8 s ^^^ b) ∧
  (∀ s t : List Byte, xor8 (s ++ t) = xor8 s ^^^ xor8 t) ∧
  ∀ s t : List Byte, s.Perm t → xor8 s = xor8 t

/-- R93: BCD of 0 to 99 is the byte whose hexadecimal digits are the value's decimal digits; MKRESP refuses other values. -/
def Obligations.BcdWritesDecimalDigits : Prop :=
  (∀ v : Byte, v.toNat ≤ 99 →
    (bcd v).toNat = v.toNat / 10 * 16 + v.toNat % 10 ∧
    (bcd v).toNat / 16 = v.toNat / 10 ∧ (bcd v).toNat % 16 = v.toNat % 10 ∧ (bcd v).toNat / 16 ≤ 9 ∧ (bcd v).toNat % 16 ≤ 9 ∧
    (bcd v).toNat ≤ 0x99) ∧
  ∀ (s : State) (vin : List Byte) (code cmd yy mo dd hh mi ss : Byte),
    bcd6 yy mo dd hh mi ss = [bcd yy, bcd mo, bcd dd, bcd hh, bcd mi, bcd ss] ∧
    ((∃ v ∈ [yy, mo, dd, hh, mi, ss], 99 < v.toNat) →
      exec (.mkresp code cmd vin yy mo dd hh mi ss) s = .next { s with tx := s.tx ++ [[0x03#8]] })

/-- R94: ENCODE of fields it does not refuse answers OK, the frame's length and the frame. -/
def Obligations.EncodeEmitsTheFrame : Prop :=
  ∀ (s : State) (cmd ack enc : Byte) (dlen : U16) (vin data rest : List Byte),
    let du := [cmd, ack] ++ vin ++ [enc] ++ be16 dlen.toNat ++ data
    let unit := if s.params.unitLenField then be16 ((22 + dlen.toNat) % 65536) else []
    let frame := [0x23#8, 0x23#8] ++ unit ++ du ++ [xor8 du]
    (vin.length = 17 → data.length < 65536 →
      decodeCmd ([0x10#8, cmd, ack] ++ vin ++ [enc] ++ be16 dlen.toNat ++ be16 data.length ++ data ++ rest) =
        .command (.encode cmd ack vin enc dlen data) rest) ∧
    ((s.params.encStrict = true ∧ (dlen.toNat ≠ data.length ∨ 400 < data.length)) →
      exec (.encode cmd ack vin enc dlen data) s = .next { s with tx := s.tx ++ [[0x02#8]] }) ∧
    (¬(s.params.encStrict = true ∧ (dlen.toNat ≠ data.length ∨ 400 < data.length)) →
      exec (.encode cmd ack vin enc dlen data) s =
        .next { s with tx := s.tx ++ [0x00#8 :: be32 frame.length ++ frame] }) ∧
    (vin.length = 17 → frame.length = s.params.headerOffset + 23 + data.length)

/-- R95: in strict mode a packet whose length field disagrees, or whose payload is longer than 400 bytes, is refused with one
PRECOND and nothing else. -/
def Obligations.StrictEncodeRefuses : Prop :=
  ∀ (s : State) (cmd ack enc : Byte) (dlen : U16) (vin data : List Byte), s.params.encStrict = true →
    ((dlen.toNat ≠ data.length ∨ 400 < data.length) ↔
      exec (.encode cmd ack vin enc dlen data) s = .next { s with tx := s.tx ++ [[0x02#8]] })

/-- R96: without strict mode ENCODE never fails, and the frame holds the fields as given, the data-unit length mod 2^16, which
wraps only for `dlen > 65513`, and the checksum of the emitted data unit. -/
def Obligations.LooseEncodeEmitsFieldsAsGiven : Prop :=
  ∀ (s : State) (cmd ack enc : Byte) (dlen : U16) (vin data : List Byte), s.params.encStrict = false → vin.length = 17 →
    let h := s.params.headerOffset
    ∃ frame : List Byte,
      exec (.encode cmd ack vin enc dlen data) s = .next { s with tx := s.tx ++ [0x00#8 :: be32 frame.length ++ frame] } ∧
      frame.length = h + 23 + data.length ∧
      slice frame h (h + 20) = [cmd, ack] ++ vin ++ [enc] ∧
      u16 frame (h + 20) = dlen.toNat ∧
      slice frame (h + 22) (h + 22 + data.length) = data ∧
      byteAt frame (h + 22 + data.length) = xor8 (slice frame h (h + 22 + data.length)) ∧
      (s.params.unitLenField = true → u16 frame 2 = (22 + dlen.toNat) % 65536) ∧
      (dlen.toNat ≤ 65513 ↔ (22 + dlen.toNat) % 65536 = 22 + dlen.toNat)

/-- R68, R92: the checksum of a frame's fields is the XOR of its bytes `[H, H+22+N)`; with `H = 2` it is also the XOR of all
bytes before it, and with `H = 4` the two data-unit-length bytes enter, so it is that only when they are equal. -/
def Obligations.ChecksumCoversTheDataUnit : Prop :=
  ∀ (p : Params) (cmd ack enc : Byte) (dlen : U16) (vin data : List Byte), vin.length = 17 → dlen.toNat = data.length →
    let frame := encodeFrame p cmd ack vin enc dlen data
    let h := p.headerOffset
    let fieldwise := xor8 ([cmd, ack] ++ vin ++ [enc] ++ be16 dlen.toNat ++ data)
    xor8 (slice frame h (h + 22 + dlen.toNat)) = fieldwise ∧
    byteAt frame (h + 22 + dlen.toNat) = fieldwise ∧
    (p.unitLenField = false → xor8 (slice frame 0 (h + 22 + dlen.toNat)) = fieldwise) ∧
    (p.unitLenField = true →
      xor8 (slice frame 0 (h + 22 + dlen.toNat)) = byteAt frame 2 ^^^ byteAt frame 3 ^^^ fieldwise ∧
      (xor8 (slice frame 0 (h + 22 + dlen.toNat)) = fieldwise ↔ byteAt frame 2 = byteAt frame 3))

/-- R97: MKRESP refuses a time field above 99 with BADARG, and otherwise answers OK and the acknowledgement packet, which
is valid. -/
def Obligations.MkrespBuildsTheAcknowledgement : Prop :=
  ∀ (s : State) (code cmd yy mo dd hh mi ss : Byte) (vin rest : List Byte),
    let data := [bcd yy, bcd mo, bcd dd, bcd hh, bcd mi, bcd ss]
    let du := [cmd, code] ++ vin ++ [0x01#8] ++ [0x00#8, 0x06#8] ++ data
    let q : Packet :=
      { commandFlag := cmd, ackFlag := code, vin := vin, encryptMode := 0x01#8, dataLength := 6#16, data := data,
        verify := xor8 du }
    (vin.length = 17 →
      decodeCmd ([0x11#8, code, cmd] ++ vin ++ [yy, mo, dd, hh, mi, ss] ++ rest) =
        .command (.mkresp code cmd vin yy mo dd hh mi ss) rest) ∧
    ((∃ v ∈ [yy, mo, dd, hh, mi, ss], 99 < v.toNat) →
      exec (.mkresp code cmd vin yy mo dd hh mi ss) s = .next { s with tx := s.tx ++ [[0x03#8]] }) ∧
    ((∀ v ∈ [yy, mo, dd, hh, mi, ss], v.toNat ≤ 99) →
      exec (.mkresp code cmd vin yy mo dd hh mi ss) s = .next { s with tx := s.tx ++ [0x00#8 :: q.bytes] }) ∧
    q.bytes = du ++ [xor8 du] ∧ (vin.length = 17 → q.valid = true)

/-- R98: CSUM always answers OK and the XOR of its bytes; the empty string, a permutation and a string with every byte twice
are as the rule says. -/
def Obligations.CsumAnswersTheXor : Prop :=
  (∀ (s : State) (b rest : List Byte),
    (b.length < 65536 → decodeCmd (0x12#8 :: be16 b.length ++ b ++ rest) = .command (.csum b) rest) ∧
    exec (.csum b) s = .next { s with tx := s.tx ++ [[0x00#8, xor8 b]] }) ∧
  (∀ s : State, exec (.csum []) s = .next { s with tx := s.tx ++ [[0x00#8, 0x00#8]] }) ∧
  (∀ (s : State) (b c : List Byte), b.Perm c → exec (.csum b) s = exec (.csum c) s) ∧
  ∀ (s : State) (b c : List Byte), c.Perm (b ++ b) → exec (.csum c) s = .next { s with tx := s.tx ++ [[0x00#8, 0x00#8]] }

/-- R34: the answer of a serializer command depends on its operands and the parameters alone, and it changes nothing. -/
def Obligations.SerializerIsPure : Prop :=
  ∀ (i : Instr) (p : Params), isSerializer i = true →
    ∃ answer : List Byte, ∀ s : State, s.params = p → exec i s = .next { s with tx := s.tx ++ [answer] }

/-- R50: a serializer command and any other command give the same responses, and the same state, in either order. -/
def Obligations.SerializerCommandsCommute : Prop :=
  ∀ (i j : Instr) (s t u : State), isSerializer i = true → exec i s = .next t → exec j s = .next u →
    ∃ x y : List Byte, t.tx = s.tx ++ [x] ∧ u.tx = s.tx ++ [y] ∧
      exec j t = .next { u with tx := s.tx ++ [x, y] } ∧ exec i u = .next { u with tx := s.tx ++ [y, x] }

/-- R99: encoding a valid packet and decoding the frame on an empty buffer delivers that packet and nothing else. The rule
allows any parameters; a frame above P_MAX_CHUNK cannot be one DECODE (R111), hence the hypothesis on it (log 11). -/
def Obligations.EncodedPacketDecodesToItself : Prop :=
  ∀ (s : State) (q : Packet), q.valid = true → s.dec.buf = [] →
    let frame := encodeFrame s.params q.commandFlag q.ackFlag q.vin q.encryptMode q.dataLength q.data
    s.params.fits frame.length = true → frame.length ≤ s.params.maxChunk →
      exec (.encode q.commandFlag q.ackFlag q.vin q.encryptMode q.dataLength q.data) s =
        .next { s with tx := s.tx ++ [0x00#8 :: be32 frame.length ++ frame] } ∧
      exec (.decode frame) s = .next
        { s with
          dec := { s.dec with buf := [], stop := .short, cntPkt := s.dec.cntPkt + 1 }
          tx := s.tx ++ [[0x00#8, 0x01#8, 0#8, 0#8, 0#8, 1#8, 0x01#8] ++ q.bytes] }

/-- R81 (with R78): the ENCODE of RESPOND emits the frame of the packet its MKRESP answers: the start marker, the
data-unit length 28 when the layout has it, then that packet record. -/
def Obligations.RespondEncodesTheAcknowledgement : Prop :=
  ∀ (s : State) (code cmd yy mo dd hh mi ss : Byte) (vin : List ByteItem),
    (∀ v ∈ [yy, mo, dd, hh, mi, ss], v.toNat ≤ 99) → (byteList vin).length = 17 →
    let header : List Byte := [0x23#8, 0x23#8] ++ (if s.params.unitLenField then [0x00#8, 0x1C#8] else [])
    ∃ (i j : Instr) (q : Packet),
      respondLine code cmd vin yy mo dd hh mi ss = [i, j] ∧
      exec i s = .next { s with tx := s.tx ++ [0x00#8 :: q.bytes] } ∧
      exec j s = .next { s with tx := s.tx ++ [0x00#8 :: be32 (header ++ q.bytes).length ++ (header ++ q.bytes)] }

/-! ## The whole machine -/

/-- R71, R74: every command sends exactly one response, whose first byte is a status 00 to 04 and, unless that is 00, its only
byte; no command touches the parameters, the port or the host's coming actions. -/
def Obligations.EveryCommandAnswersOnce : Prop :=
  ∀ (i : Instr) (s : State), ∃ (t : State) (status : Byte) (result : List Byte),
    exec i s = .next t ∧ t.tx = s.tx ++ [status :: result] ∧ status ≤ 0x04#8 ∧ (status ≠ 0x00#8 → result = []) ∧
    t.params = s.params ∧ t.port = s.port ∧ t.inbox = s.inbox

/-- R160: a command that ends with a status other than OK changes no state, and its response is the status byte. A DRAIN, whatever
anomalies it meets, answers OK. -/
def Obligations.FailedCommandsChangeNothing : Prop :=
  (∀ s : State, ∃ (t : State) (result : List Byte), exec .drain s = .next t ∧ t.tx = s.tx ++ [0x00#8 :: result]) ∧
  ∀ (i : Instr) (s t : State) (status : Byte) (result : List Byte),
    exec i s = .next t → t.tx = s.tx ++ [status :: result] → status ≠ 0x00#8 →
    t = { s with tx := s.tx ++ [[status]] }

/-- R33: which commands write which piece of decoder state; CFG and CAP are never written. -/
def Obligations.WriteRights : Prop :=
  ∀ (i : Instr) (s t : State), exec i s = .next t →
    (t.dec.stop ≠ s.dec.stop → i = .drain ∨ (∃ b, i = .decode b) ∨ i = .reset) ∧
    (¬(t.dec.cntPkt = s.dec.cntPkt ∧ t.dec.cntCsum = s.dec.cntCsum ∧ t.dec.cntOver = s.dec.cntOver ∧
        t.dec.cntFlush = s.dec.cntFlush ∧ t.dec.cntSkipb = s.dec.cntSkipb) →
      i = .drain ∨ (∃ b, i = .decode b) ∨ i = .clrcnt ∨ i = .reset) ∧
    (t.dec.buf ≠ s.dec.buf → (∃ b, i = .feed b) ∨ i = .drain ∨ (∃ b, i = .decode b) ∨ i = .reset) ∧
    cfgValue t.params = cfgValue s.params ∧ capValue t.params = capValue s.params

/-- R23: no step takes LEN above P_BUF_CAP. -/
def Obligations.StepKeepsLenWithinCap : Prop :=
  ∀ s t : State, s.withinCap = true → step s = .next t → t.withinCap = true

/-- R76: no step makes the port hold more than one command. The one-byte-a-step port is the model's choice (log 2). -/
def Obligations.StepKeepsOneCommandAtPort : Prop :=
  ∀ s t : State, s.portHoldsOne = true → step s = .next t → t.portHoldsOne = true

/-- R23, R170: the invariants hold after power-on. -/
def Obligations.ResetMeetsTheInvariants : Prop :=
  State.reset.withinCap = true ∧ State.reset.portHoldsOne = true ∧
  ∀ s : State, (powerOnReset s).withinCap = true ∧ (powerOnReset s).portHoldsOne = true

/-- R15, R42: a number that fits a 16-bit or a 32-bit field is two or four bytes of it, the most significant first. -/
def Obligations.WordsAreBigEndian : Prop :=
  (∀ n : Nat, n < 65536 → ∃ a b : Byte, be16 n = [a, b] ∧ a.toNat * 256 + b.toNat = n) ∧
  (∀ n : Nat, n < 4294967296 → ∃ a b c d : Byte,
    be32 n = [a, b, c, d] ∧ a.toNat * 16777216 + b.toNat * 65536 + c.toNat * 256 + d.toNat = n) ∧
  ∀ v : U32, ∃ a b c d : Byte,
    be32Bits v = [a, b, c, d] ∧ a.toNat * 16777216 + b.toNat * 65536 + c.toNat * 256 + d.toNat = v.toNat
end

