-- ==== Sys2Proof/Laws/Bytes.lean ====
section
/-! SUPPORT. Sequences and byte order: the small lemmas of slices, 16-bit fields and the XOR fold. -/

namespace Sys2Proof

@[simp] theorem be16_length (n : Nat) : (be16 n).length = 2 := rfl

@[simp] theorem be32Bits_length (v : U32) : (be32Bits v).length = 4 := rfl

@[simp] theorem be32_length (n : Nat) : (be32 n).length = 4 := rfl

/-- `be32` of a natural that fits is its four bytes; the free value is not used. -/
theorem be32_of_lt {n : Nat} (h : n < 4294967296) : be32 n = be32Bits (BitVec.ofNat 32 n) := by
  rw [be32, if_pos h]

@[simp] theorem byteAt_zero (b : Byte) (s : List Byte) : byteAt (b :: s) 0 = b := rfl

@[simp] theorem byteAt_succ (b : Byte) (s : List Byte) (i : Nat) : byteAt (b :: s) (i + 1) = byteAt s i := rfl

theorem byteAt_append_left {s t : List Byte} {i : Nat} (h : i < s.length) : byteAt (s ++ t) i = byteAt s i := by
  simp [byteAt, List.getD, List.getElem?_append_left h]

theorem byteAt_append_right {s t : List Byte} {i : Nat} (h : s.length ≤ i) :
    byteAt (s ++ t) i = byteAt t (i - s.length) := by
  simp [byteAt, List.getD, List.getElem?_append_right h]

theorem byteAt_take {s : List Byte} {n i : Nat} (h : i < n) : byteAt (s.take n) i = byteAt s i := by
  simp [byteAt, List.getD, h]

theorem u16_append_left {s t : List Byte} {i : Nat} (h : i + 1 < s.length) : u16 (s ++ t) i = u16 s i := by
  rw [u16, u16, byteAt_append_left (by omega), byteAt_append_left h]

theorem u16_lt (s : List Byte) (i : Nat) : u16 s i < 65536 := by
  have h1 := (byteAt s i).isLt
  have h2 := (byteAt s (i + 1)).isLt
  unfold u16
  omega

/-- Reading back what `be16` wrote gives the number mod 2^16 (R15, R41). -/
theorem u16_be16 (n : Nat) (t : List Byte) : u16 (be16 n ++ t) 0 = n % 65536 := by
  simp only [u16, be16, List.cons_append, byteAt_zero, byteAt_succ, BitVec.toNat_ofNat]
  omega

theorem u16_be16_of_lt {n : Nat} (h : n < 65536) (t : List Byte) : u16 (be16 n ++ t) 0 = n := by
  rw [u16_be16]
  omega

/-- A 16-bit field read at the end of what stands before it. -/
theorem u16_append_right (s t : List Byte) (i : Nat) : u16 (s ++ t) (s.length + i) = u16 t i := by
  rw [u16, u16, byteAt_append_right (by omega), byteAt_append_right (by omega)]
  congr 2 <;> congr 2 <;> omega

theorem slice_length {s : List Byte} {a b : Nat} (hb : b ≤ s.length) : (slice s a b).length = b - a := by
  simp only [slice, List.length_take, List.length_drop]
  omega

/-- A slice that ends inside the first part does not see the second. -/
theorem slice_append_left {s t : List Byte} {a b : Nat} (h : b ≤ s.length) : slice (s ++ t) a b = slice s a b := by
  unfold slice
  rcases Nat.lt_or_ge s.length a with ha | ha
  · have : b - a = 0 := by omega
    simp [this]
  · rw [List.drop_append_of_le_length ha, List.take_append_of_le_length (by simp; omega)]

theorem slice_take {s : List Byte} {n a b : Nat} (h : b ≤ n) : slice (s.take n) a b = slice s a b := by
  unfold slice
  rw [List.drop_take, List.take_take]
  congr 1
  omega

namespace Machine

@[simp] theorem xor8_nil : xor8 [] = 0#8 := rfl

theorem foldl_xor (s : List Byte) (a : Byte) : s.foldl (· ^^^ ·) a = a ^^^ xor8 s := by
  induction s generalizing a with
  | nil => simp [xor8]
  | cons b s ih =>
    rw [xor8, List.foldl_cons, List.foldl_cons, ih, ih, BitVec.zero_xor, BitVec.xor_assoc]

@[simp] theorem xor8_cons (b : Byte) (s : List Byte) : xor8 (b :: s) = b ^^^ xor8 s := by
  rw [xor8, List.foldl_cons, foldl_xor, BitVec.zero_xor]

end Machine

end Sys2Proof
end

