-- ==== Sys2Proof/Laws/State.lean ====
section
/-! SUPPORT. What each named update of the state does to each field, so that no later proof unfolds an update. -/

namespace Sys2Proof.Machine

section Append

variable (d : Decoder) (b : List Byte)

@[simp] theorem append_buf : (d.append b).buf = d.buf ++ b := rfl
@[simp] theorem append_stop : (d.append b).stop = d.stop := rfl
@[simp] theorem append_cntPkt : (d.append b).cntPkt = d.cntPkt := rfl
@[simp] theorem append_cntCsum : (d.append b).cntCsum = d.cntCsum := rfl
@[simp] theorem append_cntOver : (d.append b).cntOver = d.cntOver := rfl
@[simp] theorem append_cntFlush : (d.append b).cntFlush = d.cntFlush := rfl
@[simp] theorem append_cntSkipb : (d.append b).cntSkipb = d.cntSkipb := rfl

end Append

section DropFront

variable (d : Decoder) (n : Nat)

@[simp] theorem dropFront_buf : (d.dropFront n).buf = d.buf.drop n := rfl
@[simp] theorem dropFront_stop : (d.dropFront n).stop = d.stop := rfl
@[simp] theorem dropFront_cntPkt : (d.dropFront n).cntPkt = d.cntPkt := rfl
@[simp] theorem dropFront_cntCsum : (d.dropFront n).cntCsum = d.cntCsum := rfl
@[simp] theorem dropFront_cntOver : (d.dropFront n).cntOver = d.cntOver := rfl
@[simp] theorem dropFront_cntFlush : (d.dropFront n).cntFlush = d.cntFlush := rfl
@[simp] theorem dropFront_cntSkipb : (d.dropFront n).cntSkipb = d.cntSkipb := rfl

end DropFront

section Host

variable (s : State) (b : Byte)

@[simp] theorem powerOnReset_params : (powerOnReset s).params = s.params := rfl
@[simp] theorem powerOnReset_dec : (powerOnReset s).dec = Decoder.reset := rfl
@[simp] theorem powerOnReset_port : (powerOnReset s).port = [] := rfl
@[simp] theorem powerOnReset_inbox : (powerOnReset s).inbox = s.inbox := rfl
@[simp] theorem powerOnReset_tx : (powerOnReset s).tx = s.tx := rfl

@[simp] theorem applyEvent_byte_params : (applyEvent (.byte b) s).params = s.params := rfl
@[simp] theorem applyEvent_byte_dec : (applyEvent (.byte b) s).dec = s.dec := rfl
@[simp] theorem applyEvent_byte_port : (applyEvent (.byte b) s).port = s.port ++ [b] := rfl
@[simp] theorem applyEvent_byte_inbox : (applyEvent (.byte b) s).inbox = s.inbox := rfl
@[simp] theorem applyEvent_byte_tx : (applyEvent (.byte b) s).tx = s.tx := rfl
@[simp] theorem applyEvent_powerOn : applyEvent .powerOn s = powerOnReset s := rfl

end Host

@[simp] theorem reset_buf : Decoder.reset.buf = [] := rfl
@[simp] theorem reset_stop : Decoder.reset.stop = .none := rfl

end Sys2Proof.Machine
end

