-- ==== Sys2Proof/Laws/Ops.lean ====
section
/-! SUPPORT. One lemma for each shared operation, saying once everything it can do. -/

namespace Sys2Proof.Machine

/-- `respond` always answers a next state, and changes nothing but the list of responses. -/
theorem respond_eq_next (r : Response) (s : State) : respond r s = .next { s with tx := s.tx ++ [r.bytes] } := rfl

/-- `fail` (R160) answers the state before, with the status byte alone as the response. -/
theorem fail_eq_next (e : CmdError) (s : State) : fail e s = .next { s with tx := s.tx ++ [[e.code]] } := rfl

/-- What a shared ending gives when it answers `t`. -/
theorem respond_inv {r : Response} {s t : State} (h : respond r s = .next t) : t = { s with tx := s.tx ++ [r.bytes] } := by
  cases h
  rfl

/-- FEED's checks, inverted (R110, R158): BADARG first, then FULL, then none. -/
theorem feedError_cases (p : Params) (d : Decoder) (k : Nat) :
    (p.maxChunk < k ∧ feedError p d k = some .badarg) ∨
    (k ≤ p.maxChunk ∧ p.fits (d.buf.length + k) = false ∧ feedError p d k = some .full) ∨
    (k ≤ p.maxChunk ∧ p.fits (d.buf.length + k) = true ∧ feedError p d k = none) := by
  unfold feedError
  rcases Nat.lt_or_ge p.maxChunk k with h | h
  · exact .inl ⟨h, if_pos h⟩
  · rw [if_neg (Nat.not_lt.mpr h)]
    cases hf : p.fits (d.buf.length + k)
    · exact .inr (.inl ⟨h, rfl, rfl⟩)
    · exact .inr (.inr ⟨h, rfl, rfl⟩)

/-- The capacity check is monotone: fewer bytes fit as well (R23). -/
theorem fits_mono {p : Params} {m n : Nat} (hmn : m ≤ n) (h : p.fits n = true) : p.fits m = true := by
  unfold Params.fits at *
  split at h
  · rfl
  · simp only [decide_eq_true_eq] at *
    omega

/-- The two values of `H` (R5). -/
theorem headerOffset_cases (p : Params) :
    (p.unitLenField = true ∧ p.headerOffset = 4) ∨ (p.unitLenField = false ∧ p.headerOffset = 2) := by
  unfold Params.headerOffset
  cases p.unitLenField <;> simp

/-- BCD of a value that has two decimal digits (R93); the free value is not used. -/
theorem bcd_of_le {v : Byte} (h : v.toNat ≤ 99) : bcd v = BitVec.ofNat 8 (v.toNat / 10 * 16 + v.toNat % 10) := by
  rw [bcd, if_pos h]

/-- `keep` is 0 or 1 (R116, R117). -/
theorem keep_le_one (p : Params) : p.keep ≤ 1 := by
  unfold Params.keep
  split <;> omega

/-- MIN_LEN in terms of `H` (R6). -/
theorem minLen_eq (p : Params) : p.minLen = p.headerOffset + 23 := rfl

/-- MAX_FRAME in terms of MIN_LEN (R6, R8). -/
theorem maxFrame_eq (p : Params) : p.maxFrame = p.minLen + 400 := rfl

end Sys2Proof.Machine
end

