-- ==== Sys2Proof/Laws/Drain.lean ====
section
/-! SUPPORT. The DRAIN loop: what one turn can do, said once; the loop without its fuel; and the induction over its turns. -/

namespace Sys2Proof.Machine

/-- The first marker is a place where two marker bytes stand inside the buffer (R115). -/
theorem firstMarker_lt {s : List Byte} {i : Nat} (h : firstMarker s = some i) : i + 1 < s.length := by
  induction s using firstMarker.induct generalizing i with
  | case1 a b rest hm =>
    simp only [firstMarker, hm, and_self, if_true, Option.some.injEq] at h
    simp [← h]
  | case2 a b rest hm ih =>
    simp only [firstMarker, hm, if_false, Option.map_eq_some_iff] at h
    obtain ⟨j, hj, rfl⟩ := h
    have := ih hj
    simp only [List.length_cons] at *
    omega
  | case3 s hs =>
    rw [firstMarker] at h
    · cases h
    · exact hs

/-- One turn of the DRAIN loop, arm by arm in the order of R159. -/
theorem drainTurn_cases (p : Params) (d : Decoder) :
    (d.buf.length < p.minLen ∧ drainTurn p d = stopShort d) ∨
    (p.minLen ≤ d.buf.length ∧ firstMarker d.buf = none ∧ drainTurn p d = flush p d) ∨
    (p.minLen ≤ d.buf.length ∧ ∃ off, firstMarker d.buf = some off ∧ 0 < off ∧ drainTurn p d = skipPrefix d off) ∨
    (p.minLen ≤ d.buf.length ∧ firstMarker d.buf = some 0 ∧ maxData < u16 d.buf (p.headerOffset + 20) ∧
      drainTurn p d = skipOversize p d (u16 d.buf (p.headerOffset + 20))) ∨
    (p.minLen ≤ d.buf.length ∧ firstMarker d.buf = some 0 ∧ u16 d.buf (p.headerOffset + 20) ≤ maxData ∧
      d.buf.length < p.headerOffset + 23 + u16 d.buf (p.headerOffset + 20) ∧ drainTurn p d = stopPartial d) ∨
    (p.minLen ≤ d.buf.length ∧ firstMarker d.buf = some 0 ∧ u16 d.buf (p.headerOffset + 20) ≤ maxData ∧
      p.headerOffset + 23 + u16 d.buf (p.headerOffset + 20) ≤ d.buf.length ∧
      drainTurn p d = takeFrame p d (u16 d.buf (p.headerOffset + 20))) := by
  unfold drainTurn
  by_cases h1 : d.buf.length < p.minLen
  · exact .inl ⟨h1, if_pos h1⟩
  have g1 : p.minLen ≤ d.buf.length := Nat.le_of_not_lt h1
  rw [if_neg h1]
  cases hm : firstMarker d.buf with
  | none => exact .inr (.inl ⟨g1, rfl, rfl⟩)
  | some off =>
    by_cases h2 : 0 < off
    · exact .inr (.inr (.inl ⟨g1, off, rfl, h2, by simp [h2]⟩))
    obtain rfl : off = 0 := by omega
    by_cases h3 : maxData < u16 d.buf (p.headerOffset + 20)
    · exact .inr (.inr (.inr (.inl ⟨g1, rfl, h3, by simp [h3]⟩)))
    have g3 := Nat.le_of_not_lt h3
    by_cases h4 : d.buf.length < p.headerOffset + 23 + u16 d.buf (p.headerOffset + 20)
    · exact .inr (.inr (.inr (.inr (.inl ⟨g1, rfl, g3, h4, by simp [h3, h4]⟩))))
    · exact .inr (.inr (.inr (.inr (.inr ⟨g1, rfl, g3, Nat.le_of_not_lt h4, by simp [h3, h4]⟩))))

/-- What `takeFrame` answers (R123 to R126): it goes on with the frame's bytes removed, one counter up, and one record. -/
theorem takeFrame_cases (p : Params) (d : Decoder) (n : Nat) :
    (takeFrame p d n = .again { d.dropFront (p.headerOffset + 23 + n) with cntPkt := countUp d.cntPkt 1 }
        [.pkt (framePacket p (d.buf.take (p.headerOffset + 23 + n)) n)] ∧
      xor8 (slice (d.buf.take (p.headerOffset + 23 + n)) p.headerOffset (p.headerOffset + 22 + n)) =
        byteAt (d.buf.take (p.headerOffset + 23 + n)) (p.headerOffset + 22 + n)) ∨
    (takeFrame p d n = .again { d.dropFront (p.headerOffset + 23 + n) with cntCsum := countUp d.cntCsum 1 }
        [.csumErr (xor8 (slice (d.buf.take (p.headerOffset + 23 + n)) p.headerOffset (p.headerOffset + 22 + n)))
          (byteAt (d.buf.take (p.headerOffset + 23 + n)) (p.headerOffset + 22 + n)) (BitVec.ofNat 16 n)] ∧
      xor8 (slice (d.buf.take (p.headerOffset + 23 + n)) p.headerOffset (p.headerOffset + 22 + n)) ≠
        byteAt (d.buf.take (p.headerOffset + 23 + n)) (p.headerOffset + 22 + n)) := by
  by_cases h : xor8 (slice (d.buf.take (p.headerOffset + 23 + n)) p.headerOffset (p.headerOffset + 22 + n)) =
      byteAt (d.buf.take (p.headerOffset + 23 + n)) (p.headerOffset + 22 + n)
  · exact .inl ⟨by simp [takeFrame, h], h⟩
  · exact .inr ⟨by simp [takeFrame, h], h⟩

/-- A turn that goes on removes at least one byte from the front, and nothing else of the buffer. -/
theorem drainTurn_again_drops {p : Params} {d d' : Decoder} {rs : List Record} (h : drainTurn p d = .again d' rs) :
    ∃ n, 0 < n ∧ n ≤ d.buf.length ∧ d'.buf = d.buf.drop n := by
  have hmin : p.minLen = p.headerOffset + 23 := rfl
  rcases drainTurn_cases p d with ⟨_, e⟩ | ⟨_, _, e⟩ | ⟨_, off, hm, hpos, e⟩ | ⟨_, _, _, e⟩ | ⟨_, _, _, _, e⟩ | ⟨_, _, _, _, e⟩
  · simp [h, stopShort] at e
  · simp [h, flush] at e
  · have hlt := firstMarker_lt hm
    simp only [h, skipPrefix, Turn.again.injEq] at e
    exact ⟨off, hpos, by omega, by rw [e.1]; rfl⟩
  · simp only [h, skipOversize, Turn.again.injEq] at e
    refine ⟨_, ?_, ?_, by rw [e.1]; rfl⟩ <;> omega
  · simp [h, stopPartial] at e
  · rcases takeFrame_cases p d (u16 d.buf (p.headerOffset + 20)) with ⟨t, _⟩ | ⟨t, _⟩ <;>
      (simp only [h, t, Turn.again.injEq] at e; refine ⟨_, ?_, ?_, by rw [e.1]; rfl⟩ <;> omega)

theorem drainTurn_again_shorter {p : Params} {d d' : Decoder} {rs : List Record} (h : drainTurn p d = .again d' rs) :
    d'.buf.length < d.buf.length := by
  obtain ⟨n, h0, hn, e⟩ := drainTurn_again_drops h
  rw [e, List.length_drop]
  omega

/-- Any two sufficient fuels give the same loop (R127). -/
theorem drainLoop_fuel (p : Params) {m n : Nat} {d : Decoder} (hm : d.buf.length < m) (hn : d.buf.length < n) :
    drainLoop p m d = drainLoop p n d := by
  induction m generalizing n d with
  | zero => omega
  | succ m ih =>
    obtain ⟨n, rfl⟩ : ∃ k, n = k + 1 := ⟨n - 1, by omega⟩
    simp only [drainLoop]
    cases ht : drainTurn p d with
    | stopped d' rs => rfl
    | again d' rs =>
      have hlt := drainTurn_again_shorter ht
      simp only
      rw [ih (n := n) (by omega) (by omega)]

/-- DRAIN when its first turn ends it. -/
theorem drain_stopped {p : Params} {d d' : Decoder} {rs : List Record} (h : drainTurn p d = .stopped d' rs) :
    drain p d = (d', rs) := by
  simp [drain, drainLoop, h]

/-- DRAIN when its first turn goes on: the same as a DRAIN of what is left, behind the turn's records. -/
theorem drain_again {p : Params} {d d' : Decoder} {rs : List Record} (h : drainTurn p d = .again d' rs) :
    drain p d = ((drain p d').1, rs ++ (drain p d').2) := by
  have hlt := drainTurn_again_shorter h
  rw [drain, drainLoop, h]
  simp only
  rw [drainLoop_fuel p (n := d'.buf.length + 1) (by omega) (by omega)]
  rfl

/-- Induction over the turns of a DRAIN. -/
theorem drain_induction (p : Params) {P : Decoder → Decoder × List Record → Prop}
    (stopped : ∀ d d' rs, drainTurn p d = .stopped d' rs → P d (d', rs))
    (again : ∀ d d' rs, drainTurn p d = .again d' rs → P d' (drain p d') → P d ((drain p d').1, rs ++ (drain p d').2))
    (d : Decoder) : P d (drain p d) := by
  induction hn : d.buf.length using Nat.strong_induction_on generalizing d with
  | _ n ih =>
    cases ht : drainTurn p d with
    | stopped d' rs => exact drain_stopped ht ▸ stopped d d' rs ht
    | again d' rs =>
      have hlt := drainTurn_again_shorter ht
      exact drain_again ht ▸ again d d' rs ht (ih _ (by omega) d' rfl)

end Sys2Proof.Machine
end

