-- ==== Sys2Proof/Laws/Exec.lean ====
section
/-! SUPPORT. What any command can do, said once: it answers with one response, changes the decoder at most, and not even
that when the response is an error. -/

namespace Sys2Proof.Machine

/-- The command's response and the decoder it leaves; both are the same whatever has left the block before. -/
theorem exec_respond (i : Instr) (s : State) :
    ∃ (r : Response) (d : Decoder), (∀ e, r = .error e → d = s.dec) ∧
      ∀ tx, exec i { s with tx := tx } = respond r { s with dec := d, tx := tx } := by
  cases i with
  | nop => exact ⟨.ok .empty, s.dec, fun _ _ => rfl, fun _ => rfl⟩
  | feed b =>
    rcases feedError_cases s.params s.dec b.length with ⟨_, h⟩ | ⟨_, _, h⟩ | ⟨_, _, h⟩
    · exact ⟨.error .badarg, s.dec, fun _ _ => rfl, fun tx => by simp only [exec, execFeed, h, fail]⟩
    · exact ⟨.error .full, s.dec, fun _ _ => rfl, fun tx => by simp only [exec, execFeed, h, fail]⟩
    · exact ⟨.ok .empty, s.dec.append b, by simp, fun tx => by simp only [exec, execFeed, h]⟩
  | drain =>
    exact ⟨.ok (.drained (drain s.params s.dec).1.stop (drain s.params s.dec).2), (drain s.params s.dec).1, by simp,
      fun _ => rfl⟩
  | decode b =>
    rcases feedError_cases s.params s.dec b.length with ⟨_, h⟩ | ⟨_, _, h⟩ | ⟨_, _, h⟩
    · exact ⟨.error .badarg, s.dec, fun _ _ => rfl, fun tx => by simp only [exec, execDecode, h, fail]⟩
    · exact ⟨.error .full, s.dec, fun _ _ => rfl, fun tx => by simp only [exec, execDecode, h, fail]⟩
    · exact ⟨.ok (.drained (drain s.params (s.dec.append b)).1.stop (drain s.params (s.dec.append b)).2),
        (drain s.params (s.dec.append b)).1, by simp, fun tx => by simp only [exec, execDecode, h, drainAndRespond]⟩
  | encode cmd ack vin enc dlen data =>
    cases h : encodeRefused s.params dlen data.length
    · exact ⟨.ok (.frame (encodeFrame s.params cmd ack vin enc dlen data)), s.dec, fun _ _ => rfl, fun tx => by
        simp only [exec, execEncode, h, Bool.false_eq_true, if_false]⟩
    · exact ⟨.error .precond, s.dec, fun _ _ => rfl, fun tx => by simp only [exec, execEncode, h, fail, if_true]⟩
  | mkresp code cmd vin yy mo dd hh mi ss =>
    cases h : badTime yy mo dd hh mi ss
    · exact ⟨.ok (.packet (makeResponse code cmd vin yy mo dd hh mi ss)), s.dec, fun _ _ => rfl, fun tx => by
        simp only [exec, execMkresp, h, Bool.false_eq_true, if_false]⟩
    · exact ⟨.error .badarg, s.dec, fun _ _ => rfl, fun tx => by simp only [exec, execMkresp, h, fail, if_true]⟩
  | csum b => exact ⟨.ok (.xor (xor8 b)), s.dec, fun _ _ => rfl, fun _ => rfl⟩
  | rdreg idx => exact ⟨.ok (.value (readReg s idx)), s.dec, fun _ _ => rfl, fun _ => rfl⟩
  | clrcnt =>
    exact ⟨.ok .empty, { s.dec with cntPkt := 0, cntCsum := 0, cntOver := 0, cntFlush := 0, cntSkipb := 0 }, by simp,
      fun _ => rfl⟩
  | reset => exact ⟨.ok .empty, Decoder.reset, by simp, fun _ => rfl⟩
  | illegalLow _ => exact ⟨.error .illegal, s.dec, fun _ _ => rfl, fun _ => rfl⟩
  | illegalMid _ => exact ⟨.error .illegal, s.dec, fun _ _ => rfl, fun _ => rfl⟩
  | illegalHigh _ => exact ⟨.error .illegal, s.dec, fun _ _ => rfl, fun _ => rfl⟩

end Sys2Proof.Machine
end

