-- ==== Sys2Proof/Laws/PerInstr.lean ====
section
/-! SUPPORT. What holds of every command as syntax, one lemma per constructor: the total length of its bytes is the one the
table of R72 gives its format. -/

/-- The total length of a command (R72). -/
def Sys2Proof.Laws.CommandBytes.formatLength : Sys2Proof.Instr → Nat
  | .nop => 1
  | .feed b => 3 + b.length
  | .drain => 1
  | .decode b => 3 + b.length
  | .encode _ _ _ _ _ data => 25 + data.length
  | .mkresp _ _ _ _ _ _ _ _ _ => 26
  | .csum b => 3 + b.length
  | .rdreg _ => 2
  | .clrcnt => 1
  | .reset => 1
  | .illegalLow _ => 1
  | .illegalMid _ => 1
  | .illegalHigh _ => 1

/-- A well-formed command's bytes are as many as its format says (R72), and begin with a byte that the port reads as that
many bytes (R76). -/
def Sys2Proof.Laws.CommandBytes.Statement (i : Sys2Proof.Instr) : Prop :=
  i.wellFormed = true →
    (Sys2Proof.encodeCmd i).length = formatLength i ∧
      Sys2Proof.commandLength (Sys2Proof.encodeCmd i) = formatLength i

namespace Sys2Proof.Laws.CommandBytes

theorem nop : Statement .nop := fun _ => by decide

theorem fb_length (b : List Byte) (hb : fitsU16 b = true) (op : Byte) (hop : op = 0x01#8 ∨ op = 0x03#8 ∨ op = 0x12#8) :
    (op :: encodeFB b).length = 3 + b.length ∧ commandLength (op :: encodeFB b) = 3 + b.length := by
  have hlt : b.length < 65536 := by simpa [fitsU16] using hb
  have h16 := u16_append_right [op] (encodeFB b) 0
  rw [show u16 (encodeFB b) 0 = b.length from u16_be16_of_lt hlt b] at h16
  constructor
  · simp [encodeFB]
    omega
  · rw [commandLength, byteAt_zero, if_pos hop]
    simpa using h16

theorem feed (b : List Byte) : Statement (.feed b) := fun h => fb_length b h _ (.inl rfl)

theorem drain : Statement .drain := fun _ => by decide

theorem decode (b : List Byte) : Statement (.decode b) := fun h => fb_length b h _ (.inr (.inl rfl))

theorem encode (cmd ack : Byte) (vin : List Byte) (enc : Byte) (dlen : U16) (data : List Byte) :
    Statement (.encode cmd ack vin enc dlen data) := by
  intro h
  simp only [Instr.wellFormed, isVin, fitsU16, Bool.and_eq_true, beq_iff_eq, decide_eq_true_eq] at h
  obtain ⟨hv, hd⟩ := h
  have h16 := u16_append_right ([0x10#8] ++ [cmd, ack] ++ vin ++ [enc] ++ be16 dlen.toNat) (be16 data.length ++ data) 0
  rw [u16_be16_of_lt hd] at h16
  constructor
  · simp [encodeCmd, formatLength, hv]
    omega
  · have : commandLength (encodeCmd (.encode cmd ack vin enc dlen data)) = 25 + u16 (encodeCmd (.encode cmd ack vin enc dlen data)) 23 := by
      rw [commandLength, encodeCmd, byteAt_zero]
      simp
    rw [this, formatLength]
    simpa [encodeCmd, hv, Nat.add_assoc] using h16

theorem mkresp (code cmd : Byte) (vin : List Byte) (yy mo dd hh mi ss : Byte) :
    Statement (.mkresp code cmd vin yy mo dd hh mi ss) := by
  intro h
  have hv : vin.length = 17 := by simpa [Instr.wellFormed, isVin] using h
  constructor
  · simp [encodeCmd, formatLength, hv]
  · rw [commandLength, encodeCmd, byteAt_zero]
    simp [formatLength]

theorem csum (b : List Byte) : Statement (.csum b) := fun h => fb_length b h _ (.inr (.inr rfl))

theorem rdreg (idx : Byte) : Statement (.rdreg idx) := fun _ => ⟨rfl, by simp [commandLength, encodeCmd, formatLength]⟩

theorem clrcnt : Statement .clrcnt := fun _ => by decide

theorem reset : Statement .reset := fun _ => by decide

/-- A one-byte command whose opcode is not one of the longer formats'. -/
theorem one_byte (op : Byte) (h1 : ¬(op = 0x01#8 ∨ op = 0x03#8 ∨ op = 0x12#8)) (h2 : op ≠ 0x10#8) (h3 : op ≠ 0x11#8)
    (h4 : op ≠ 0x20#8) : commandLength [op] = 1 := by
  simp only [commandLength, byteAt_zero, h1, h2, h3, h4, if_false]

theorem illegalLow (op : Byte) : Statement (.illegalLow op) := fun h =>
  ⟨rfl, by
    simp only [Instr.wellFormed, Bool.and_eq_true, decide_eq_true_eq] at h
    exact one_byte op (by bv_omega) (by bv_omega) (by bv_omega) (by bv_omega)⟩

theorem illegalMid (op : Byte) : Statement (.illegalMid op) := fun h =>
  ⟨rfl, by
    simp only [Instr.wellFormed, Bool.and_eq_true, decide_eq_true_eq] at h
    exact one_byte op (by bv_omega) (by bv_omega) (by bv_omega) (by bv_omega)⟩

theorem illegalHigh (op : Byte) : Statement (.illegalHigh op) := fun h =>
  ⟨rfl, by
    simp only [Instr.wellFormed, Bool.and_eq_true, decide_eq_true_eq] at h
    exact one_byte op (by bv_omega) (by bv_omega) (by bv_omega) (by bv_omega)⟩

end Sys2Proof.Laws.CommandBytes
end

