-- ==== Sys2Proof/Tests/Slice0.lean ====
section
/-! SUPPORT. Tests. Every expected value is from spec/95_test_vectors.md (the vector is named) or written out by hand from the
rule named. The `witness_` theorems show, for every obligation with hypotheses, values that meet them together. -/

namespace Sys2Proof.Machine

/-- The VIN of the vectors. -/
def testVin : List Byte :=
  [0x4C#8, 0x53#8, 0x56#8, 0x41#8, 0x41#8, 0x32#8, 0x31#8, 0x45#8, 0x37#8, 0x4A#8, 0x4E#8, 0x30#8, 0x30#8, 0x30#8, 0x30#8,
    0x30#8, 0x31#8]

/-- The 26 bytes of F1 (V1) up to the third payload byte. -/
def testF1Head : List Byte :=
  [0x23#8, 0x23#8, 0x00#8, 0x19#8, 0x01#8, 0x01#8] ++ testVin ++ [0x01#8, 0x00#8, 0x03#8]

/-- F1: the frame of V1. -/
def testF1 : List Byte := testF1Head ++ [0x01#8, 0x02#8, 0x03#8, 0x3F#8]

/-- The packet record of F1 on the port (R78). -/
def testRecord : List Byte := [0x01#8, 0x01#8] ++ testVin ++ [0x01#8, 0x00#8, 0x03#8, 0x01#8, 0x02#8, 0x03#8, 0x3F#8]

/-- The packet of F1. -/
def testPacket : Packet :=
  { commandFlag := 0x01#8, ackFlag := 0x01#8, vin := testVin, encryptMode := 0x01#8, dataLength := 3#16,
    data := [0x01#8, 0x02#8, 0x03#8], verify := 0x3F#8 }

/-- V19a: the first 100 bytes of the oversized frame O. -/
def testO100 : List Byte :=
  [0x23#8, 0x23#8, 0x02#8, 0x0A#8, 0x01#8, 0x01#8] ++ testVin ++ [0x01#8, 0x01#8, 0xF4#8] ++ List.replicate 74 0x00#8

/-- A decoder holding `b`. -/
def holding (b : List Byte) : Decoder := { Decoder.reset with buf := b }

/-- A block with parameters `p` whose buffer holds `b`. -/
def block (p : Params) (b : List Byte) : State := { State.reset with params := p, dec := holding b }

/-- The layout without the data-unit-length field (R5). -/
def shortLayout : Params := { Params.default with unitLenField := false }

/-- Params with a capacity (R9). -/
def capped (n : Nat) : Params := { Params.default with bufCap := some n }

/-- R117. -/
def keepsTail : Params := { Params.default with retainTail := true }

/-- R96. -/
def loose : Params := { Params.default with encStrict := false }

/-- The responses of a next state. -/
def responses (o : Host.Outcome State Fault Refusal) : Option (List (List Byte)) :=
  match o with
  | .next t => some t.tx
  | .fault _ => none
  | .refused _ => none

/-- The decoder of a next state. -/
def decoderOf (o : Host.Outcome State Fault Refusal) : Option Decoder :=
  match o with
  | .next t => some t.dec
  | .fault _ => none
  | .refused _ => none

/-- Whether the port lacks a part of a command. -/
def isPartial (bs : List Byte) : Bool :=
  match decodeCmd bs with
  | .command _ _ => false
  | .needMore _ => true

/-! ## WellFormed refuses -/

theorem test_wf_long_chunk_refused (b : List Byte) (h : b.length = 65536) :
    (Instr.feed b).wellFormed = false ∧ (Instr.decode b).wellFormed = false ∧ (Instr.csum b).wellFormed = false ∧
    (Instr.encode 0 0 testVin 0 0 b).wellFormed = false := by
  simp [Instr.wellFormed, fitsU16, h]

theorem test_wf_longest_chunk_accepted (b : List Byte) (h : b.length = 65535) :
    (Instr.feed b).wellFormed = true ∧ (Instr.decode b).wellFormed = true ∧ (Instr.csum b).wellFormed = true ∧
    (Instr.encode 0 0 testVin 0 0 b).wellFormed = true := by
  simp [Instr.wellFormed, fitsU16, h, isVin, testVin]

theorem test_wf_vin_of_16_or_18_refused :
    (Instr.encode 0 0 (testVin.take 16) 0 0 []).wellFormed = false ∧
    (Instr.encode 0 0 (0 :: testVin) 0 0 []).wellFormed = false ∧
    (Instr.mkresp 0 0 (testVin.take 16) 0 0 0 0 0 0).wellFormed = false ∧
    (Instr.mkresp 0 0 testVin 0 0 0 0 0 0).wellFormed = true := by decide

theorem test_wf_assigned_opcodes_are_not_illegal :
    (Instr.illegalLow 0x03#8).wellFormed = false ∧ (Instr.illegalLow 0x10#8).wellFormed = false ∧
    (Instr.illegalMid 0x12#8).wellFormed = false ∧ (Instr.illegalMid 0x20#8).wellFormed = false ∧
    (Instr.illegalHigh 0x21#8).wellFormed = false ∧ (Instr.illegalHigh 0xFF#8).wellFormed = false := by decide

/-! ## Decoding: words written out from R72, R73 and R75 -/

theorem test_decode_nop : decodeCmd [0x00#8, 0x01#8] = .command .nop [0x01#8] := by decide

theorem test_decode_feed : decodeCmd [0x01#8, 0x00#8, 0x02#8, 0x23#8, 0x00#8] = .command (.feed [0x23#8, 0x00#8]) [] := by
  decide

theorem test_decode_drain : decodeCmd [0x02#8] = .command .drain [] := by decide

theorem test_decode_decode :
    decodeCmd [0x03#8, 0x00#8, 0x01#8, 0xAB#8, 0xCD#8] = .command (.decode [0xAB#8]) [0xCD#8] := by decide

/-- The layout of V1's command bytes, with operands that all differ, and one byte behind them. -/
theorem test_decode_encode :
    decodeCmd ([0x10#8, 0x01#8, 0x02#8] ++ testVin ++ [0x04#8, 0x00#8, 0x05#8, 0x00#8, 0x03#8, 0x06#8, 0x07#8, 0x08#8, 0x09#8]) =
      .command (.encode 0x01#8 0x02#8 testVin 0x04#8 5#16 [0x06#8, 0x07#8, 0x08#8]) [0x09#8] := by decide +kernel

/-- V3's command bytes, with another `cmd`. -/
theorem test_decode_mkresp :
    decodeCmd ([0x11#8, 0x01#8, 0x02#8] ++ testVin ++ [0x19#8, 0x03#8, 0x0E#8, 0x09#8, 0x1A#8, 0x35#8]) =
      .command (.mkresp 0x01#8 0x02#8 testVin 25#8 3#8 14#8 9#8 26#8 53#8) [] := by decide +kernel

theorem test_decode_csum : decodeCmd [0x12#8, 0x00#8, 0x03#8, 0x01#8, 0x02#8, 0x03#8] =
    .command (.csum [0x01#8, 0x02#8, 0x03#8]) [] := by decide

theorem test_decode_rdreg : decodeCmd [0x20#8, 0x42#8, 0xFF#8] = .command (.rdreg 0x42#8) [0xFF#8] := by decide

theorem test_decode_clrcnt : decodeCmd [0x21#8] = .command .clrcnt [] := by decide

theorem test_decode_reset : decodeCmd [0xFF#8, 0xFF#8] = .command .reset [0xFF#8] := by decide

theorem test_decode_unassigned :
    decodeCmd [0x04#8] = .command (.illegalLow 0x04#8) [] ∧ decodeCmd [0x0F#8] = .command (.illegalLow 0x0F#8) [] ∧
    decodeCmd [0x13#8] = .command (.illegalMid 0x13#8) [] ∧ decodeCmd [0x1F#8] = .command (.illegalMid 0x1F#8) [] ∧
    decodeCmd [0x22#8] = .command (.illegalHigh 0x22#8) [] ∧ decodeCmd [0xFE#8] = .command (.illegalHigh 0xFE#8) [] := by
  decide

/-- The byte order of `k` (R42): `01 00` is 256 bytes, of which 2 are here. -/
theorem test_decode_length_is_big_endian : decodeCmd [0x01#8, 0x01#8, 0x00#8, 0x00#8, 0x00#8] = .needMore .payload := by
  decide

theorem test_decode_partial_by_name :
    decodeCmd [] = .needMore .opcode ∧ decodeCmd [0x12#8, 0x00#8] = .needMore .operands ∧ decodeCmd [0x20#8] = .needMore .operands :=
  by decide

theorem test_encode_words :
    encodeCmd (.csum [0x01#8, 0x02#8, 0x03#8]) = [0x12#8, 0x00#8, 0x03#8, 0x01#8, 0x02#8, 0x03#8] ∧
    encodeCmd (.mkresp 0x01#8 0x01#8 testVin 25#8 3#8 14#8 9#8 26#8 53#8) =
      [0x11#8, 0x01#8, 0x01#8] ++ testVin ++ [0x19#8, 0x03#8, 0x0E#8, 0x09#8, 0x1A#8, 0x35#8] := by decide

/-! ## One step on a small state -/

/-- V29. -/
theorem test_nop : responses (step { State.reset with port := [0x00#8] }) = some [[0x00#8]] := by decide

/-- V25: FULL on 400 bytes at 28 of 427, OK on 399. -/
theorem test_feed_full :
    responses (exec (.feed (List.replicate 400 0#8)) (block (capped 427) (List.replicate 28 0#8))) = some [[0x01#8]] ∧
    responses (exec (.feed (List.replicate 399 0#8)) (block (capped 427) (List.replicate 28 0#8))) = some [[0x00#8]] := by
  decide +kernel

/-- V26, with a smaller limit: BADARG, although FULL applies too (R158). -/
theorem test_feed_badarg :
    responses (exec (.feed [0#8, 0#8]) (block { maxChunk := 1, bufCap := some 427 } (List.replicate 427 0#8))) =
      some [[0x03#8]] := by decide +kernel

/-- V12 and V21: 28 of F1's 30 bytes stop PARTIAL and stay. -/
theorem test_drain_partial :
    responses (exec .drain (block Params.default (testF1.take 28))) = some [[0x00#8, 0x02#8, 0#8, 0#8, 0#8, 0#8]] ∧
    (decoderOf (exec .drain (block Params.default (testF1.take 28)))).map (·.buf) = some (testF1.take 28) := by decide +kernel

/-- V16: a flush that keeps the last byte. -/
theorem test_drain_retains_tail :
    decoderOf (exec .drain (block keepsTail (List.replicate 26 0#8 ++ [0x23#8]))) =
      some { Decoder.reset with buf := [0x23#8], stop := .flushed, cntFlush := 1 } := by decide +kernel

/-- V17: a bad checksum is dropped and the frame behind it delivered. -/
theorem test_decode_bad_checksum :
    responses (exec (.decode (testF1Head ++ [0x01#8, 0x02#8, 0x03#8, 0x40#8] ++ testF1)) State.reset) =
      some [[0x00#8, 0x01#8, 0#8, 0#8, 0#8, 2#8, 0x04#8, 0x3F#8, 0x40#8, 0x00#8, 0x03#8, 0x01#8] ++ testRecord] := by
  decide +kernel

/-- V24: the wrong read the checksum does not catch; one byte is left over. -/
theorem test_decode_short_read :
    decoderOf (exec (.decode ([0x23#8, 0x23#8, 0x00#8, 0x18#8, 0x01#8, 0x01#8] ++ testVin ++
      [0x01#8, 0x00#8, 0x02#8, 0x01#8, 0x02#8, 0x3D#8, 0x00#8])) State.reset) =
      some { Decoder.reset with buf := [0x00#8], stop := .short, cntPkt := 1 } := by decide +kernel

/-- V1 and V2: the frame, with and without the data-unit length. -/
theorem test_encode_frame :
    responses (exec (.encode 0x01#8 0x01#8 testVin 0x01#8 3#16 [0x01#8, 0x02#8, 0x03#8]) State.reset) =
      some [[0x00#8, 0x00#8, 0x00#8, 0x00#8, 0x1E#8] ++ testF1] ∧
    responses (exec (.encode 0x01#8 0x01#8 testVin 0x01#8 3#16 [0x01#8, 0x02#8, 0x03#8]) (block shortLayout [])) =
      some [[0x00#8, 0x00#8, 0x00#8, 0x00#8, 0x1C#8, 0x23#8, 0x23#8] ++ testRecord] := by decide +kernel

/-- V7 and V9b: strict mode refuses; without it the data-unit length wraps to `0015`. -/
theorem test_encode_modes :
    responses (exec (.encode 0x01#8 0x01#8 testVin 0x01#8 2#16 [0x01#8, 0x02#8, 0x03#8]) State.reset) = some [[0x02#8]] ∧
    responses (exec (.encode 0x01#8 0x01#8 testVin 0x01#8 0xFFFF#16 []) (block loose [])) =
      some [[0x00#8, 0x00#8, 0x00#8, 0x00#8, 0x1B#8, 0x23#8, 0x23#8, 0x00#8, 0x15#8, 0x01#8, 0x01#8] ++ testVin ++
        [0x01#8, 0xFF#8, 0xFF#8, 0x3C#8]] := by decide +kernel

/-- V3. -/
theorem test_mkresp :
    responses (exec (.mkresp 0x01#8 0x01#8 testVin 25#8 3#8 14#8 9#8 26#8 53#8) State.reset) =
      some [[0x00#8, 0x01#8, 0x01#8] ++ testVin ++
        [0x01#8, 0x00#8, 0x06#8, 0x25#8, 0x03#8, 0x14#8, 0x09#8, 0x26#8, 0x53#8, 0x74#8]] := by decide +kernel

/-- V3d, and V3b's neighbour: 100 is refused, 99 is not. -/
theorem test_mkresp_badarg :
    responses (exec (.mkresp 0x01#8 0x01#8 testVin 25#8 3#8 14#8 9#8 26#8 100#8) State.reset) = some [[0x03#8]] ∧
    badTime 25#8 3#8 14#8 9#8 26#8 99#8 = false := by decide +kernel

/-- V5d and V5b. -/
theorem test_csum :
    responses (exec (.csum testVin) State.reset) = some [[0x00#8, 0x3D#8]] ∧
    responses (exec (.csum [0x23#8, 0x23#8]) State.reset) = some [[0x00#8, 0x00#8]] := by decide +kernel

/-- V27, V27b, V27c. -/
theorem test_rdreg_after_reset :
    responses (exec (.rdreg 0x00#8) State.reset) = some [[0x00#8, 0x01#8, 0x90#8, 0x1B#8, 0x05#8]] ∧
    responses (exec (.rdreg 0x01#8) State.reset) = some [[0x00#8, 0x00#8, 0x00#8, 0x00#8, 0x00#8]] ∧
    responses (exec (.rdreg 0x08#8) State.reset) = some [[0x00#8, 0xFF#8, 0xFF#8, 0xFF#8, 0xFF#8]] := by decide +kernel

/-- V25's capacity and a stop reason, read back. -/
theorem test_rdreg_cap_and_stat :
    responses (exec (.rdreg 0x08#8) (block (capped 427) [])) = some [[0x00#8, 0x00#8, 0x00#8, 0x01#8, 0xAB#8]] ∧
    readReg { State.reset with dec := { Decoder.reset with stop := .flushed } } 0x01#8 = 3#32 := by decide +kernel

/-- V27e: counters go, BUF and STOP stay (R142). -/
theorem test_clrcnt :
    decoderOf (exec .clrcnt { State.reset with dec := { buf := [0x23#8], stop := .flushed, cntPkt := 1, cntCsum := 2, cntOver := 3, cntFlush := 4, cntSkipb := 5 } }) =
      some { Decoder.reset with buf := [0x23#8], stop := .flushed } := by decide

/-- V29b. -/
theorem test_reset :
    decoderOf (exec .reset { State.reset with dec := { buf := [0x23#8], stop := .flushed, cntPkt := 1, cntCsum := 2, cntOver := 3, cntFlush := 4, cntSkipb := 5 } }) =
      some Decoder.reset := by decide

/-- V28: the byte after an unassigned opcode stays at the port. -/
theorem test_illegal :
    (match step { State.reset with port := [0x05#8, 0x00#8] } with
     | .next t => some (t.tx, t.port)
     | .fault _ => none
     | .refused _ => none) = some ([[0x04#8]], [0x00#8]) := by decide

/-- V4. -/
theorem test_bcd : [0#8, 9#8, 10#8, 25#8, 59#8, 99#8].map bcd = [0x00#8, 0x09#8, 0x10#8, 0x25#8, 0x59#8, 0x99#8] := by decide

/-- P2's OVERSIZE and CSUMERR records and V15's FRAMING record, byte by byte. -/
theorem test_event_record_bytes :
    (Record.oversize 500#16 527).bytes = [0x03#8, 0x01#8, 0xF4#8, 0x00#8, 0x00#8, 0x02#8, 0x0F#8] ∧
    (Record.csumErr 0x3F#8 0x40#8 3#16).bytes = [0x04#8, 0x3F#8, 0x40#8, 0x00#8, 0x03#8] ∧
    (Record.framing 27 0).bytes = [0x02#8, 0x00#8, 0x00#8, 0x00#8, 0x1B#8, 0x00#8] := by decide

/-- V24b's false frame and the overlapping match of R115. -/
theorem test_first_marker :
    firstMarker [0x23#8, 0x23#8, 0x23#8] = some 0 ∧ firstMarker [0x23#8, 0x00#8, 0x23#8, 0x23#8] = some 2 ∧
    firstMarker [0x00#8, 0x23#8] = none := by decide

/-- R80's repeat and string items, and RDALL's nine commands (R81). -/
theorem test_assembler :
    AsmLine.portBytes Params.default (.csum [.hex 0x01#8, .copies 0x00#8 2, .text [0x41#8]]) =
      [0x12#8, 0x00#8, 0x04#8, 0x01#8, 0x00#8, 0x00#8, 0x41#8] ∧
    (AsmLine.portBytes Params.default .rdall).length = 18 ∧
    AsmLine.portBytes Params.default (.rdreg .cntSkipb) = [0x20#8, 0x07#8] := by decide

/-! ## Witnesses for the hypotheses of the obligations -/

theorem witness_DecodeEncodeRoundTrip_DecodedBytesAreTheCommand :
    (Instr.encode 0x01#8 0x01#8 testVin 0x01#8 3#16 [0x01#8, 0x02#8, 0x03#8]).wellFormed = true ∧
    (Instr.mkresp 0x01#8 0x01#8 testVin 25#8 3#8 14#8 9#8 26#8 53#8).wellFormed = true ∧
    (Instr.feed []).wellFormed = true ∧ (Instr.illegalLow 0x04#8).wellFormed = true ∧
    (Instr.illegalMid 0x1F#8).wellFormed = true ∧ (Instr.illegalHigh 0xFE#8).wellFormed = true ∧
    decodeCmd (encodeCmd (.mkresp 0x01#8 0x01#8 testVin 25#8 3#8 14#8 9#8 26#8 53#8) ++ [0x00#8]) =
      .command (.mkresp 0x01#8 0x01#8 testVin 25#8 3#8 14#8 9#8 26#8 53#8) [0x00#8] := by decide +kernel

/-- No byte, one byte short, and the length operand short. -/
theorem witness_PartialCommandIsHeld :
    (Instr.csum [0x01#8, 0x02#8]).wellFormed = true ∧ (encodeCmd (.csum [0x01#8, 0x02#8])).length = 5 ∧
    isPartial ((encodeCmd (.csum [0x01#8, 0x02#8])).take 4) = true ∧
    isPartial ((encodeCmd (.csum [0x01#8, 0x02#8])).take 2) = true ∧ isPartial [] = true := by decide

theorem witness_UnassignedOpcodesAnswerIllegal :
    responses (step { State.reset with port := [0x04#8] }) = some [[0x04#8]] ∧
    responses (step { State.reset with port := [0x0F#8, 0x00#8] }) = some [[0x04#8]] ∧
    responses (step { State.reset with port := [0x13#8] }) = some [[0x04#8]] ∧
    responses (step { State.reset with port := [0x1F#8] }) = some [[0x04#8]] ∧
    responses (step { State.reset with port := [0x22#8] }) = some [[0x04#8]] ∧
    responses (step { State.reset with port := [0xFE#8] }) = some [[0x04#8]] := by decide

theorem witness_StepRunsDecodedCommand :
    decodeCmd { State.reset with port := [0x20#8, 0x02#8, 0x00#8] }.port = .command (.rdreg 0x02#8) [0x00#8] := by decide

theorem witness_StepWaitsForTheHost :
    decodeCmd State.reset.port = .needMore .opcode ∧ State.reset.inbox = [] ∧
    decodeCmd { State.reset with port := [0x20#8], inbox := [.byte 0x02#8] }.port = .needMore .operands ∧
    { State.reset with port := [0x20#8], inbox := [.byte 0x02#8] }.inbox = .byte 0x02#8 :: [] ∧
    decodeCmd { State.reset with port := [0x12#8, 0x00#8, 0x01#8], inbox := [.powerOn] }.port = .needMore .payload ∧
    { State.reset with port := [0x12#8, 0x00#8, 0x01#8], inbox := [.powerOn] }.inbox = .powerOn :: [] := by decide

theorem witness_PowerOnResetsTheBlock (s : State) : ∃ t, exec .clrcnt s = .next t := ⟨_, rfl⟩

theorem witness_CfgReportsTheParameters : ∃ t, step State.reset = .next t := ⟨_, rfl⟩

theorem witness_RdregReadsTheRegister :
    State.reset.params.bufCap = none ∧ (block (capped 427) []).params.bufCap = some 427 ∧ 0x09#8 ≤ (0x09#8 : Byte) ∧
    0x09#8 ≤ (0xFF#8 : Byte) := by decide

theorem witness_ResetStateIsAsStated :
    (∃ t, exec .reset (block keepsTail testF1) = .next t) ∧ 0x09#8 ≤ (0x09#8 : Byte) ∧ 0x09#8 ≤ (0xFF#8 : Byte) :=
  ⟨⟨_, rfl⟩, by decide⟩

/-- For FeedAppendsOrRefuses and DecodeIsFeedThenDrain: each clause at the limit of its range. -/
theorem witness_FeedAppendsOrRefuses_DecodeIsFeedThenDrain :
    [0x23#8, 0x00#8].length < 65536 ∧
    (block { maxChunk := 1 } []).params.maxChunk < [0x23#8, 0x00#8].length ∧
    ([0x23#8].length ≤ (block (capped 427) (List.replicate 427 0#8)).params.maxChunk ∧
      (block (capped 427) (List.replicate 427 0#8)).params.fits
        ((block (capped 427) (List.replicate 427 0#8)).dec.buf.length + [0x23#8].length) = false) ∧
    ([0x23#8].length ≤ (block (capped 427) (List.replicate 426 0#8)).params.maxChunk ∧
      (block (capped 427) (List.replicate 426 0#8)).params.fits
        ((block (capped 427) (List.replicate 426 0#8)).dec.buf.length + [0x23#8].length) = true) ∧
    (block (capped 427) (List.replicate 427 0#8)).params.fits
      (block (capped 427) (List.replicate 427 0#8)).dec.buf.length = true := by decide +kernel

theorem witness_FeedRefusesLongChunks :
    (block { maxChunk := 1 } []).params.maxChunk < [0x23#8, 0x00#8].length ∧
    State.reset.params.maxChunk = 65535 ∧ decodeCmd [0x01#8, 0x00#8, 0x01#8, 0x23#8] = .command (.feed [0x23#8]) [] ∧
    (decoderOf (exec (.feed [0x23#8]) State.reset)).isSome = true := by decide

/-- All but the last byte of a frame of MAX_FRAME bytes. -/
def testLongPartial : List Byte :=
  [0x23#8, 0x23#8, 0x01#8, 0xA6#8, 0x03#8, 0xFE#8] ++ testVin ++ [0x01#8, 0x01#8, 0x90#8] ++ List.replicate 400 0xAA#8

/-- The third clause at its limit: 1 byte still fits when a DRAIN has left `MAX_FRAME - 1` bytes and `P_BUF_CAP = MAX_FRAME`. -/
theorem witness_FeedRefusesWhatDoesNotFit :
    ((capped 427).bufCap = some 427 ∧ [0x23#8].length ≤ (capped 427).maxChunk ∧
      427 < (block (capped 427) (List.replicate 427 0#8)).dec.buf.length + [0x23#8].length) ∧
    State.reset.params.bufCap = none ∧
    ((capped 427).maxFrame ≤ 427 ∧ [0x23#8].length ≤ 427 - (capped 427).maxFrame + 1 ∧
      (decoderOf (exec .drain (block (capped 427) testLongPartial))).map (·.buf.length) = some 426 ∧
      (decoderOf (exec (.feed [0x23#8]) (block (capped 427) testLongPartial))).map (·.buf.length) = some 427) := by
  decide +kernel

theorem witness_FirstMarkerIsLeast :
    firstMarker [0x00#8, 0x23#8, 0x23#8] = some 1 ∧ firstMarker [0x23#8] = none ∧
    byteAt [0x00#8, 0x23#8, 0x23#8] 1 = 0x23#8 := by decide

/-- 26 bytes, among them a marker: still too short. -/
theorem witness_DrainStopsShort : (holding (testF1.take 26)).buf.length < Params.default.minLen := by decide +kernel

/-- 27 bytes without a marker, under both tail policies. -/
theorem witness_DrainFlushes :
    (Params.default.minLen ≤ (holding (List.replicate 27 0#8)).buf.length ∧
      firstMarker (holding (List.replicate 27 0#8)).buf = none ∧ (block Params.default []).params.retainTail = false) ∧
    keepsTail.minLen ≤ (holding (List.replicate 26 0#8 ++ [0x23#8])).buf.length ∧
    firstMarker (holding (List.replicate 26 0#8 ++ [0x23#8])).buf = none ∧ keepsTail.retainTail = true := by decide +kernel

theorem witness_DrainDiscardsPrefix :
    Params.default.minLen ≤ (holding ([0xAB#8, 0xCD#8] ++ testF1)).buf.length ∧
    firstMarker (holding ([0xAB#8, 0xCD#8] ++ testF1)).buf = some 2 ∧ 0 < 2 := by decide +kernel

/-- V19a's header, with only 27 bytes of it there. -/
theorem witness_DrainSkipsOversize :
    Params.default.minLen ≤ (holding (testO100.take 27)).buf.length ∧ firstMarker (holding (testO100.take 27)).buf = some 0 ∧
    400 < u16 (holding (testO100.take 27)).buf (Params.default.headerOffset + 20) := by decide +kernel

/-- V12: one byte of F1 missing, and MIN_LEN bytes of it. -/
theorem witness_DrainStopsPartial :
    (Params.default.minLen ≤ (testF1.take 29).length ∧ firstMarker (testF1.take 29) = some 0 ∧
      u16 (testF1.take 29) (Params.default.headerOffset + 20) ≤ 400 ∧
      (testF1.take 29).length < Params.default.headerOffset + 23 + u16 (testF1.take 29) (Params.default.headerOffset + 20)) ∧
    Params.default.minLen ≤ (testF1.take 27).length ∧ firstMarker (testF1.take 27) = some 0 := by decide +kernel

/-- V17's first frame, with bytes behind it, in both layouts. -/
theorem witness_DrainDropsBadChecksum :
    [0x00#8, 0x19#8].length = Params.default.headerOffset - 2 ∧ ([] : List Byte).length = shortLayout.headerOffset - 2 ∧
    testVin.length = 17 ∧ [0x01#8, 0x02#8, 0x03#8].length ≤ 400 ∧
    (holding (testF1.take 29 ++ [0x40#8, 0xAA#8])).buf =
      [0x23#8, 0x23#8] ++ [0x00#8, 0x19#8] ++
        ([0x01#8, 0x01#8] ++ testVin ++ [0x01#8] ++ be16 [0x01#8, 0x02#8, 0x03#8].length ++ [0x01#8, 0x02#8, 0x03#8]) ++
        [0x40#8] ++ [0xAA#8] ∧
    xor8 ([0x01#8, 0x01#8] ++ testVin ++ [0x01#8] ++ be16 [0x01#8, 0x02#8, 0x03#8].length ++ [0x01#8, 0x02#8, 0x03#8]) ≠
      0x40#8 := by decide +kernel

/-- F1 with a wrong data-unit length, which is not read (R67); an empty payload too. -/
theorem witness_DrainDeliversPacket :
    [0xEE#8, 0xEE#8].length = Params.default.headerOffset - 2 ∧ testVin.length = 17 ∧
    [0x01#8, 0x02#8, 0x03#8].length ≤ 400 ∧ ([] : List Byte).length ≤ 400 ∧
    (holding ([0x23#8, 0x23#8, 0xEE#8, 0xEE#8] ++ testRecord)).buf =
      [0x23#8, 0x23#8] ++ [0xEE#8, 0xEE#8] ++
        ([0x01#8, 0x01#8] ++ testVin ++ [0x01#8] ++ be16 [0x01#8, 0x02#8, 0x03#8].length ++ [0x01#8, 0x02#8, 0x03#8]) ++
        [0x3F#8] ++ [] ∧
    xor8 ([0x01#8, 0x01#8] ++ testVin ++ [0x01#8] ++ be16 [0x01#8, 0x02#8, 0x03#8].length ++ [0x01#8, 0x02#8, 0x03#8]) =
      0x3F#8 := by decide +kernel

/-- DrainAnswersStopAndRecords: a DECODE refused, and one that ends each way. -/
theorem witness_DrainAnswersStopAndRecords :
    responses (exec (.decode [0#8]) (block (capped 427) (List.replicate 427 0#8))) = some [[0x01#8]] ∧
    responses (exec (.decode [0#8, 0#8]) (block { maxChunk := 1 } [])) = some [[0x03#8]] ∧
    responses (exec (.decode []) State.reset) = some [[0x00#8, 0x01#8, 0#8, 0#8, 0#8, 0#8]] := by decide +kernel

/-- A DRAIN that ends with each stop reason. -/
theorem witness_BufferAfterDrain_SecondDrainDoesNothing :
    (drain Params.default (holding [])).1.stop = .short ∧
    (drain Params.default (holding (testF1.take 28))).1.stop = .partialFrame ∧
    (drain keepsTail (holding (List.replicate 27 0#8))).1.stop = .flushed ∧
    (decoderOf (exec .drain (block Params.default (testF1.take 28)))).isSome = true := by decide +kernel

/-- A turn that goes on with a record, and one that goes on without. -/
theorem witness_DrainEnds :
    drainTurn Params.default (holding testF1) =
      .again { Decoder.reset with cntPkt := 1 } [.pkt testPacket] ∧
    drainTurn Params.default (holding (0x00#8 :: testF1)) = .again { holding testF1 with cntSkipb := 1 } [] ∧
    (holding testF1).buf.length + 1 ≤ 31 := by decide +kernel

theorem witness_PacketsAreValid :
    Record.pkt testPacket ∈ (drain Params.default (holding testF1)).2 ∧ testVin.length = 17 ∧
    (responses (exec (.mkresp 0x01#8 0x01#8 testVin 25#8 3#8 14#8 9#8 26#8 53#8) State.reset)).isSome = true := by
  decide +kernel

theorem witness_BufferIsAQueue :
    (decoderOf (exec (.feed [0x23#8]) State.reset)).map (·.buf) = some [0x23#8] ∧
    (decoderOf (exec .drain State.reset)).isSome = true ∧
    (decoderOf (exec (.decode testF1) State.reset)).map (·.buf) = some [] := by decide +kernel

/-- V15 (FRAMING), V19a (OVERSIZE) and V17 (CSUMERR). -/
theorem witness_EventRecordsCarryTheirCause :
    (drain Params.default (holding (List.replicate 27 0#8))).2 = [] ++ .framing 27 0 :: [] ∧
    Record.oversize 500#16 100 ∈ (drain Params.default (holding testO100)).2 ∧
    Record.csumErr 0x3F#8 0x40#8 3#16 ∈ (drain Params.default (holding (testF1.take 29 ++ [0x40#8]))).2 := by decide +kernel

theorem witness_DrainReadsOnlyTheBuffer :
    (holding testF1).buf = { holding testF1 with stop := .flushed, cntPkt := 7 }.buf ∧
    (drain Params.default { holding testF1 with stop := .flushed, cntPkt := 7 }).2 = [.pkt testPacket] := by decide +kernel

/-- P1's two chunks, and V30's with the tail kept, which the default policy makes a hazard. -/
theorem witness_ChunkingKeepsThePackets :
    hazardFree Params.default Decoder.reset [testF1.take 16, testF1.drop 16] = true ∧
    packetsOf (drainChunks Params.default Decoder.reset [testF1.take 16, testF1.drop 16]).2 = [testPacket] ∧
    hazardFree keepsTail Decoder.reset [List.replicate 26 0#8 ++ [0x23#8], testF1.drop 1 ++ testF1] = true ∧
    hazardFree Params.default Decoder.reset [List.replicate 26 0#8 ++ [0x23#8], testF1.drop 1 ++ testF1] = false := by
  decide +kernel

theorem witness_WordsAreBigEndian : 65535 < 65536 ∧ 4294967295 < 4294967296 := by decide

theorem witness_XorFoldLaws : [0x01#8, 0x02#8, 0x03#8].Perm [0x03#8, 0x01#8, 0x02#8] := by decide

theorem witness_BcdWritesDecimalDigits :
    (99#8 : Byte).toNat ≤ 99 ∧ (0#8 : Byte).toNat ≤ 99 ∧ ∃ v ∈ [0#8, 100#8, 0#8, 0#8, 0#8, 0#8], 99 < v.toNat := by decide

/-- Payloads of 400 and 401 bytes (V6b, V8), and a length field that disagrees (V7), with and without strict mode. -/
theorem witness_EncodeEmitsTheFrame_StrictEncodeRefuses :
    (testVin.length = 17 ∧ (List.replicate 400 0xAA#8).length < 65536) ∧
    (State.reset.params.encStrict = true ∧ 400 < (List.replicate 401 0x00#8).length) ∧
    (State.reset.params.encStrict = true ∧ (2#16 : U16).toNat ≠ [0x01#8, 0x02#8, 0x03#8].length) ∧
    ¬(State.reset.params.encStrict = true ∧
      ((400#16 : U16).toNat ≠ (List.replicate 400 0xAA#8).length ∨ 400 < (List.replicate 400 0xAA#8).length)) ∧
    ¬((block loose []).params.encStrict = true ∧
      ((2#16 : U16).toNat ≠ [0x01#8, 0x02#8, 0x03#8].length ∨ 400 < [0x01#8, 0x02#8, 0x03#8].length)) := by decide +kernel

/-- `dlen` 65513 does not wrap, 65514 does. -/
theorem witness_LooseEncodeEmitsFieldsAsGiven :
    (block loose []).params.encStrict = false ∧ testVin.length = 17 ∧
    (block { loose with unitLenField := true } []).params.unitLenField = true ∧
    (22 + (65513#16 : U16).toNat) % 65536 = 65535 ∧ (22 + (65514#16 : U16).toNat) % 65536 = 0 := by decide

theorem witness_ChecksumCoversTheDataUnit :
    testVin.length = 17 ∧ (3#16 : U16).toNat = [0x01#8, 0x02#8, 0x03#8].length ∧ shortLayout.unitLenField = false ∧
    Params.default.unitLenField = true := by decide

/-- Both sides of the last clause: the data-unit lengths of payloads of 3 and of 235 bytes. -/
theorem witness_ChecksumCoversTheDataUnit_both_ways :
    be16 (22 + 3) = [0x00#8, 0x19#8] ∧ be16 (22 + 235) = [0x01#8, 0x01#8] := by decide

/-- 99 is accepted, 100 is not. -/
theorem witness_MkrespBuildsTheAcknowledgement :
    testVin.length = 17 ∧ (∃ v ∈ [0#8, 0#8, 0#8, 0#8, 0#8, 100#8], 99 < v.toNat) ∧
    ∀ v ∈ [99#8, 12#8, 31#8, 23#8, 59#8, 0#8], v.toNat ≤ 99 := by decide

theorem witness_CsumAnswersTheXor :
    ([] : List Byte).length < 65536 ∧ [0x01#8, 0x02#8].Perm [0x02#8, 0x01#8] ∧
    [0x01#8, 0x02#8, 0x02#8, 0x01#8].Perm ([0x01#8, 0x02#8] ++ [0x01#8, 0x02#8]) := by decide

/-- For SerializerIsPure and SerializerCommandsCommute: a serializer command beside a decoder command that changes state. -/
theorem witness_SerializerIsPure_SerializerCommandsCommute :
    isSerializer (.csum [0x01#8]) = true ∧ State.reset.params = Params.default ∧
    (decoderOf (exec (.csum [0x01#8]) State.reset)).isSome = true ∧
    decoderOf (exec (.decode testF1) State.reset) = some { Decoder.reset with stop := .short, cntPkt := 1 } := by
  decide +kernel

/-- F1 at a capacity and a chunk limit of exactly its length's neighbourhood: 427 and 30. -/
theorem witness_EncodedPacketDecodesToItself :
    testPacket.valid = true ∧ (block { bufCap := some 427, maxChunk := 30 } []).dec.buf = [] ∧
    encodeFrame { bufCap := some 427, maxChunk := 30 } 0x01#8 0x01#8 testVin 0x01#8 3#16 [0x01#8, 0x02#8, 0x03#8] = testF1 ∧
    ({ bufCap := some 427, maxChunk := 30 } : Params).fits testF1.length = true ∧ testF1.length ≤ 30 := by decide +kernel

theorem witness_RespondEncodesTheAcknowledgement :
    (∀ v ∈ [99#8, 12#8, 31#8, 23#8, 59#8, 0#8], v.toNat ≤ 99) ∧ (byteList [.text testVin]).length = 17 ∧
    (byteList [.copies 0x30#8 17]).length = 17 := by decide

/-- Each of the four non-OK statuses, and an OK, for FailedCommandsChangeNothing. -/
theorem witness_FailedCommandsChangeNothing :
    responses (exec (.feed [0#8]) (block (capped 427) (List.replicate 427 0#8))) = some ([] ++ [0x01#8 :: []]) ∧
    responses (exec (.encode 0 0 testVin 0 1#16 []) State.reset) = some ([] ++ [0x02#8 :: []]) ∧
    responses (exec (.decode [0#8, 0#8]) (block { maxChunk := 1 } [])) = some ([] ++ [0x03#8 :: []]) ∧
    responses (exec (.illegalMid 0x13#8) State.reset) = some ([] ++ [0x04#8 :: []]) := by decide +kernel

/-- WriteRights: a command that changes BUF, STOP and a counter. -/
theorem witness_WriteRights :
    decoderOf (exec .drain (block Params.default testF1)) = some { Decoder.reset with stop := .short, cntPkt := 1 } := by
  decide +kernel

/-- The invariants' hypotheses: a full buffer with a partial command at the port, and a whole command there. -/
theorem witness_StepKeepsLenWithinCap_StepKeepsOneCommandAtPort :
    State.withinCap { block (capped 427) (List.replicate 427 0#8) with port := [0x01#8, 0x00#8] } = true ∧
    State.portHoldsOne { block (capped 427) (List.replicate 427 0#8) with port := [0x01#8, 0x00#8] } = true ∧
    State.portHoldsOne { State.reset with port := [0x20#8, 0x00#8] } = true ∧
    State.portHoldsOne { State.reset with port := [0x20#8, 0x00#8, 0x00#8] } = false ∧
    responses (step { State.reset with port := [0x20#8, 0x05#8] }) = some [[0x00#8, 0#8, 0#8, 0#8, 0#8]] := by decide +kernel

end Sys2Proof.Machine
end

namespace Sys2Proof

/-- The four bytes `be32Bits` writes, weighted by their place from the front, give the word back. -/
theorem be32Bits_bigEndian (v : U32) : ∃ a b c d : Byte,
    be32Bits v = [a, b, c, d] ∧ a.toNat * 16777216 + b.toNat * 65536 + c.toNat * 256 + d.toNat = v.toNat := by
  refine ⟨_, _, _, _, rfl, ?_⟩
  have hv : v.toNat < 4294967296 := v.isLt
  simp only [BitVec.toNat_ofNat]
  omega

/-- The two bytes of `be16` are what `u16` reads back (R15). -/
theorem be16_bigEndian {n : Nat} (h : n < 65536) : ∃ a b : Byte, be16 n = [a, b] ∧ a.toNat * 256 + b.toNat = n :=
  ⟨_, _, rfl, u16_be16_of_lt h []⟩

/-- A natural below 2^32 is its own 32-bit word, so its bytes are that word's. -/
theorem be32_bigEndian {n : Nat} (h : n < 4294967296) : ∃ a b c d : Byte,
    be32 n = [a, b, c, d] ∧ a.toNat * 16777216 + b.toNat * 65536 + c.toNat * 256 + d.toNat = n := by
  have hword : (BitVec.ofNat 32 n).toNat = n := Nat.mod_eq_of_lt h
  simpa only [be32_of_lt h, hword] using be32Bits_bigEndian (BitVec.ofNat 32 n)

/-- Settles O57: `be16`, `be32` and `be32Bits` each write the most significant byte first. -/
theorem wordsAreBigEndian : Obligations.WordsAreBigEndian :=
  ⟨fun _ => be16_bigEndian, fun _ => be32_bigEndian, be32Bits_bigEndian⟩

end Sys2Proof

namespace Sys2Proof

/-! ## Slices and 16-bit fields -/

theorem slice_singleton {s : List Byte} {a : Nat} (h : a < s.length) : slice s a (a + 1) = [byteAt s a] := by
  simp [slice, byteAt, h, List.take_one, List.head?_drop]

/-- Two slices side by side are one. -/
theorem slice_append_slice (s : List Byte) {a b c : Nat} (hab : a ≤ b) (hbc : b ≤ c) :
    slice s a b ++ slice s b c = slice s a c := by
  have hb : s.drop b = (s.drop a).drop (b - a) := by rw [List.drop_drop, Nat.add_sub_cancel' hab]
  have hc : c - a = (b - a) + (c - b) := by omega
  rw [slice, slice, slice, hb, hc, List.take_add]

theorem slice_pair {s : List Byte} {a : Nat} (h : a + 1 < s.length) : slice s a (a + 2) = [byteAt s a, byteAt s (a + 1)] := by
  rw [← slice_append_slice s (b := a + 1) (by omega) (by omega), slice_singleton (by omega), slice_singleton h]
  rfl

/-- `be16` writes back the two bytes `u16` read (R15). -/
theorem be16_u16 {s : List Byte} {i : Nat} (h : i + 1 < s.length) : be16 (u16 s i) = slice s i (i + 2) := by
  have hhi := (byteAt s i).isLt
  have hlo := (byteAt s (i + 1)).isLt
  simp only [slice_pair h, be16, u16, List.cons.injEq, and_true]
  constructor <;> apply BitVec.eq_of_toNat_eq <;> rw [BitVec.toNat_ofNat] <;> omega

theorem u16_take {s : List Byte} {n i : Nat} (h : i + 1 < n) : u16 (s.take n) i = u16 s i := by
  rw [u16, u16, byteAt_take (by omega), byteAt_take h]

namespace Machine

/-! ## The answers of ENCODE and MKRESP -/

/-- The one response ENCODE gives under parameters `p` (R94, R95). -/
def encodeAnswer (p : Params) (cmd ack : Byte) (vin : List Byte) (enc : Byte) (dlen : U16) (data : List Byte) : Response :=
  if encodeRefused p dlen data.length then .error .precond else .ok (.frame (encodeFrame p cmd ack vin enc dlen data))

theorem execEncode_eq (cmd ack : Byte) (vin : List Byte) (enc : Byte) (dlen : U16) (data : List Byte) (s : State) :
    execEncode cmd ack vin enc dlen data s = respond (encodeAnswer s.params cmd ack vin enc dlen data) s := by
  unfold execEncode encodeAnswer
  split <;> rfl

/-- The one response MKRESP gives (R97). -/
def mkrespAnswer (code cmd : Byte) (vin : List Byte) (yy mo dd hh mi ss : Byte) : Response :=
  if badTime yy mo dd hh mi ss then .error .badarg else .ok (.packet (makeResponse code cmd vin yy mo dd hh mi ss))

theorem execMkresp_eq (code cmd : Byte) (vin : List Byte) (yy mo dd hh mi ss : Byte) (s : State) :
    execMkresp code cmd vin yy mo dd hh mi ss s = respond (mkrespAnswer code cmd vin yy mo dd hh mi ss) s := by
  unfold execMkresp mkrespAnswer
  split <;> rfl

/-! ## What a command and a step do to the decoder -/

/-- Everything a command may do to the decoder of a block with parameters `p`: the decoder before, the command, and the decoder
after it. -/
inductive DecoderStep (p : Params) (d : Decoder) : Instr → Decoder → Prop where
  /-- Every command but DRAIN, CLRCNT and RESET can leave the decoder as it is (FEED and DECODE by a refusal). -/
  | kept (i : Instr) (notDrain : i ≠ .drain) (notClrcnt : i ≠ .clrcnt) (notReset : i ≠ .reset) : DecoderStep p d i d
  /-- FEED of a chunk that fits (R110, R112). -/
  | fed (b : List Byte) (fits : p.fits (d.buf.length + b.length) = true) : DecoderStep p d (.feed b) (d.append b)
  /-- DRAIN (R113). -/
  | drained : DecoderStep p d .drain (drain p d).1
  /-- DECODE of a chunk that fits (R130). -/
  | decoded (b : List Byte) (fits : p.fits (d.buf.length + b.length) = true) :
      DecoderStep p d (.decode b) (drain p (d.append b)).1
  /-- CLRCNT (R142). -/
  | cleared : DecoderStep p d .clrcnt { d with cntPkt := 0, cntCsum := 0, cntOver := 0, cntFlush := 0, cntSkipb := 0 }
  /-- RESET (R143). -/
  | wasReset : DecoderStep p d .reset Decoder.reset

/-- No command changes the parameters (R170). -/
theorem exec_params {i : Instr} {s t : State} (h : exec i s = .next t) : t.params = s.params := by
  obtain ⟨r, d, -, hexec⟩ := exec_respond i s
  rw [respond_inv ((hexec s.tx).symm.trans h)]

theorem execFeed_decoder {b : List Byte} {s t : State} (h : execFeed b s = .next t) :
    DecoderStep s.params s.dec (.feed b) t.dec := by
  rcases feedError_cases s.params s.dec b.length with ⟨-, he⟩ | ⟨-, -, he⟩ | ⟨-, hfits, he⟩ <;>
    simp only [execFeed, he] at h <;> rw [respond_inv h]
  · exact .kept _ nofun nofun nofun
  · exact .kept _ nofun nofun nofun
  · exact .fed b hfits

theorem execDecode_decoder {b : List Byte} {s t : State} (h : execDecode b s = .next t) :
    DecoderStep s.params s.dec (.decode b) t.dec := by
  rcases feedError_cases s.params s.dec b.length with ⟨-, he⟩ | ⟨-, -, he⟩ | ⟨-, hfits, he⟩ <;>
    simp only [execDecode, he] at h <;> rw [respond_inv h]
  · exact .kept _ nofun nofun nofun
  · exact .kept _ nofun nofun nofun
  · exact .decoded b hfits

/-- Every command changes the decoder in one of the ways of `DecoderStep`. -/
theorem exec_decoder {i : Instr} {s t : State} (h : exec i s = .next t) : DecoderStep s.params s.dec i t.dec := by
  cases i with
  | feed b => exact execFeed_decoder h
  | decode b => exact execDecode_decoder h
  | drain => cases h; exact .drained
  | clrcnt => cases h; exact .cleared
  | reset => cases h; exact .wasReset
  | encode cmd ack vin enc dlen data =>
    rw [respond_inv ((execEncode_eq cmd ack vin enc dlen data s).symm.trans h)]
    exact .kept _ nofun nofun nofun
  | mkresp code cmd vin yy mo dd hh mi ss =>
    rw [respond_inv ((execMkresp_eq code cmd vin yy mo dd hh mi ss s).symm.trans h)]
    exact .kept _ nofun nofun nofun
  | nop | csum | rdreg | illegalLow | illegalMid | illegalHigh => cases h; exact .kept _ nofun nofun nofun

/-- While it waits, the block keeps its decoder or is reset by power-on (R76, R170). -/
theorem awaitHost_cases (s : State) :
    (awaitHost s).params = s.params ∧ ((awaitHost s).dec = s.dec ∨ (awaitHost s).dec = Decoder.reset) := by
  unfold awaitHost
  split
  · exact ⟨rfl, .inl rfl⟩
  next e es _ =>
    cases e with
    | byte b => exact ⟨rfl, .inl rfl⟩
    | powerOn => exact ⟨rfl, .inr rfl⟩

/-- A step executes the whole command at the port, or waits for the host (R76). -/
theorem step_cases {s t : State} (h : step s = .next t) :
    (∃ i rest, decodeCmd s.port = .command i rest ∧ exec i { s with port := rest } = .next t) ∨ t = awaitHost s := by
  unfold step at h
  split at h
  next i rest hi => exact .inl ⟨i, rest, hi, h⟩
  · cases h
    exact .inr rfl

/-- No step changes the parameters (R170). -/
theorem step_params {s t : State} (h : step s = .next t) : t.params = s.params := by
  obtain ⟨i, rest, -, hexec⟩ | rfl := step_cases h
  · exact (exec_params hexec :)
  · exact (awaitHost_cases s).1

/-- Whatever a step does to the decoder, some command does: waiting does what NOP or what RESET does. -/
theorem step_decoder {s t : State} (h : step s = .next t) : ∃ i, DecoderStep s.params s.dec i t.dec := by
  obtain ⟨i, rest, -, hexec⟩ | rfl := step_cases h
  · exact ⟨i, (exec_decoder hexec :)⟩
  · obtain hkept | hreset := (awaitHost_cases s).2
    · exact ⟨.nop, hkept ▸ .kept _ nofun nofun nofun⟩
    · exact ⟨.reset, hreset ▸ .wasReset⟩

/-! ## The turns of a DRAIN, put together -/

/-- The decoder a turn leaves. -/
def Turn.decoder : Turn → Decoder
  | .stopped d _ => d
  | .again d _ => d

/-- The records a turn emits. -/
def Turn.records : Turn → List Record
  | .stopped _ rs => rs
  | .again _ rs => rs

/-- What every turn does, and two turns in a row do when each does, a whole DRAIN does. -/
theorem drain_of_turn {p : Params} {R : Decoder → Decoder → List Record → Prop}
    (turn : ∀ d, R d (drainTurn p d).decoder (drainTurn p d).records)
    (trans : ∀ {d d' e rs rs'}, R d d' rs → R d' e rs' → R d e (rs ++ rs')) (d : Decoder) :
    R d (drain p d).1 (drain p d).2 := by
  refine drain_induction p (P := fun d r => R d r.1 r.2) ?_ ?_ d
  · intro d d' rs ht
    have hlast := turn d
    rwa [ht] at hlast
  · intro d d' rs ht ih
    have hfirst := turn d
    rw [ht] at hfirst
    exact trans hfirst ih

section Arms

variable (p : Params) (d : Decoder) (n : Nat)

@[simp] theorem stopShort_decoder : (stopShort d).decoder = { d with stop := .short } := rfl
@[simp] theorem stopShort_records : (stopShort d).records = [] := rfl
@[simp] theorem flush_decoder : (flush p d).decoder =
    { d.dropFront (d.buf.length - p.keep) with stop := .flushed, cntFlush := countUp d.cntFlush 1 } := rfl
@[simp] theorem flush_records : (flush p d).records = [.framing (d.buf.length - p.keep) p.keep] := rfl
@[simp] theorem skipPrefix_decoder :
    (skipPrefix d n).decoder = { d.dropFront n with cntSkipb := countUp d.cntSkipb n } := rfl
@[simp] theorem skipPrefix_records : (skipPrefix d n).records = [] := rfl
@[simp] theorem skipOversize_decoder : (skipOversize p d n).decoder =
    { d.dropFront (min (p.headerOffset + 23 + n) d.buf.length) with cntOver := countUp d.cntOver 1 } := rfl
@[simp] theorem skipOversize_records : (skipOversize p d n).records =
    [.oversize (BitVec.ofNat 16 n) (min (p.headerOffset + 23 + n) d.buf.length)] := rfl
@[simp] theorem stopPartial_decoder : (stopPartial d).decoder = { d with stop := .partialFrame } := rfl
@[simp] theorem stopPartial_records : (stopPartial d).records = [] := rfl
@[simp] theorem again_decoder (rs : List Record) : (Turn.again d rs).decoder = d := rfl
@[simp] theorem again_records (rs : List Record) : (Turn.again d rs).records = rs := rfl

end Arms

/-! ## What a DRAIN counts (R26, R118) -/

@[simp] theorem countUp_zero (c : U32) : countUp c 0 = c := BitVec.add_zero c

@[simp] theorem countUp_countUp (c : U32) (m n : Nat) : countUp (countUp c m) n = countUp c (m + n) := by
  simp only [countUp, BitVec.ofNat_add, BitVec.add_assoc]

@[simp] theorem packetsOf_nil : packetsOf [] = [] := rfl

@[simp] theorem packetsOf_append (rs rs' : List Record) : packetsOf (rs ++ rs') = packetsOf rs ++ packetsOf rs' :=
  List.filterMap_append

/-- The record is a CSUMERR. -/
@[simp] def Record.isCsumErr (r : Record) : Bool := match r with | .csumErr _ _ _ => true | _ => false

/-- The record is an OVERSIZE. -/
@[simp] def Record.isOversize (r : Record) : Bool := match r with | .oversize _ _ => true | _ => false

/-- The record is a FRAMING. -/
@[simp] def Record.isFraming (r : Record) : Bool := match r with | .framing _ _ => true | _ => false

/-- The bytes of the buffer that the records account for. -/
def reportedBytes (p : Params) (rs : List Record) : Nat := (rs.map (Record.consumed p)).sum

@[simp] theorem reportedBytes_nil (p : Params) : reportedBytes p [] = 0 := rfl

@[simp] theorem reportedBytes_singleton (p : Params) (r : Record) : reportedBytes p [r] = r.consumed p := by
  simp [reportedBytes]

@[simp] theorem reportedBytes_append (p : Params) (rs rs' : List Record) :
    reportedBytes p (rs ++ rs') = reportedBytes p rs + reportedBytes p rs' := by
  simp [reportedBytes]

/-- The way from `d` to `e` counts exactly the records `rs`, and the bytes it takes from the front of the buffer are those that
the records account for and `skipped` more. -/
structure Accounts (p : Params) (d e : Decoder) (rs : List Record) (skipped : Nat) : Prop where
  cntPkt : e.cntPkt = countUp d.cntPkt (packetsOf rs).length
  cntCsum : e.cntCsum = countUp d.cntCsum (rs.countP Record.isCsumErr)
  cntOver : e.cntOver = countUp d.cntOver (rs.countP Record.isOversize)
  cntFlush : e.cntFlush = countUp d.cntFlush (rs.countP Record.isFraming)
  cntSkipb : e.cntSkipb = countUp d.cntSkipb skipped
  buf : e.buf = d.buf.drop (reportedBytes p rs + skipped)
  present : reportedBytes p rs + skipped ≤ d.buf.length

theorem Accounts.trans {p : Params} {d d' e : Decoder} {rs rs' : List Record} {m n : Nat}
    (h : Accounts p d d' rs m) (h' : Accounts p d' e rs' n) : Accounts p d e (rs ++ rs') (m + n) where
  cntPkt := by simp [h'.cntPkt, h.cntPkt]
  cntCsum := by simp [h'.cntCsum, h.cntCsum]
  cntOver := by simp [h'.cntOver, h.cntOver]
  cntFlush := by simp [h'.cntFlush, h.cntFlush]
  cntSkipb := by simp [h'.cntSkipb, h.cntSkipb]
  buf := by
    rw [h'.buf, h.buf, List.drop_drop, reportedBytes_append]
    congr 1
    omega
  present := by
    have hrest := h'.present
    have hfirst := h.present
    rw [h.buf, List.length_drop] at hrest
    rw [reportedBytes_append]
    omega

/-- A frame's bytes leave the buffer for the one record that says its length (R123). -/
theorem takeFrame_accounts {p : Params} {d : Decoder} {n : Nat} (hn : n ≤ maxData)
    (hwhole : p.headerOffset + 23 + n ≤ d.buf.length) :
    Accounts p d (takeFrame p d n).decoder (takeFrame p d n).records 0 := by
  have h16 : n % 65536 = n := Nat.mod_eq_of_lt (by unfold maxData at hn; omega)
  rcases takeFrame_cases p d n with ⟨e, -⟩ | ⟨e, -⟩ <;> rw [e] <;>
    constructor <;> simp [packetsOf, framePacket, Record.consumed, h16, hwhole]

/-- Every turn counts what it does, arm by arm (R114 to R126). -/
theorem drainTurn_accounts (p : Params) (d : Decoder) :
    ∃ skipped, Accounts p d (drainTurn p d).decoder (drainTurn p d).records skipped := by
  rcases drainTurn_cases p d with ⟨-, e⟩ | ⟨-, -, e⟩ | ⟨-, off, hm, -, e⟩ | ⟨-, -, -, e⟩ | ⟨-, -, -, -, e⟩ |
    ⟨-, -, hn, hwhole, e⟩ <;> rw [e]
  · exact ⟨0, by constructor <;> simp⟩
  · exact ⟨0, by constructor <;> simp [packetsOf, Record.consumed]⟩
  · have hoff := firstMarker_lt hm
    refine ⟨off, ?_⟩
    constructor <;> simp
    omega
  · exact ⟨0, by constructor <;> simp [packetsOf, Record.consumed]⟩
  · exact ⟨0, by constructor <;> simp⟩
  · exact ⟨0, takeFrame_accounts hn hwhole⟩

theorem drain_accounts (p : Params) (d : Decoder) : ∃ skipped, Accounts p d (drain p d).1 (drain p d).2 skipped := by
  refine drain_of_turn (R := fun d e rs => ∃ skipped, Accounts p d e rs skipped) (drainTurn_accounts p) ?_ d
  rintro d d' e rs rs' ⟨m, hfirst⟩ ⟨n, hrest⟩
  exact ⟨m + n, hfirst.trans hrest⟩

/-- A DRAIN takes bytes from the front of the buffer only (R22). -/
theorem drain_buf (p : Params) (d : Decoder) : ∃ n, (drain p d).1.buf = d.buf.drop n := by
  obtain ⟨skipped, h⟩ := drain_accounts p d
  exact ⟨_, h.buf⟩

/-- Settles O35: the counts of `Accounts` are those of the statement, and its byte balance follows from what the buffer loses. -/
theorem countersCountRecords : Obligations.CountersCountRecords := by
  intro p d e rs reported
  obtain ⟨skipped, h⟩ := drain_accounts p d
  refine ⟨h.cntPkt, h.cntCsum, h.cntOver, h.cntFlush, skipped, h.cntSkipb, ?_⟩
  have hlen : e.buf.length = d.buf.length - (reported + skipped) := by rw [h.buf, List.length_drop]; rfl
  have hpresent : reported + skipped ≤ d.buf.length := h.present
  omega

/-! ## Valid packets (R36) -/

theorem packet_valid_iff (q : Packet) : q.valid = true ↔
    q.vin.length = 17 ∧ q.dataLength.toNat = q.data.length ∧ q.data.length ≤ maxData ∧ q.verify = xor8 q.dataUnit := by
  simp [Packet.valid, and_assoc]

theorem framePacket_dataLength {p : Params} {fr : List Byte} {n : Nat} (hn : n ≤ maxData) :
    (framePacket p fr n).dataLength.toNat = n :=
  Nat.mod_eq_of_lt (by unfold maxData at hn; omega)

/-- The data unit of a frame's packet is the frame's bytes from the header offset to the checksum (R61, R91). -/
theorem framePacket_dataUnit {p : Params} {fr : List Byte} {n : Nat} (hn : n ≤ maxData)
    (hlen : u16 fr (p.headerOffset + 20) = n) (hwhole : fr.length = p.headerOffset + 23 + n) :
    (framePacket p fr n).dataUnit = slice fr p.headerOffset (p.headerOffset + 22 + n) := by
  have hbe : be16 n = slice fr (p.headerOffset + 20) (p.headerOffset + 22) := hlen ▸ be16_u16 (by omega)
  rw [Packet.dataUnit, dataUnit, framePacket_dataLength hn, hbe]
  simp only [framePacket]
  rw [← slice_pair (by omega), ← slice_singleton (by omega), slice_append_slice, slice_append_slice, slice_append_slice,
    slice_append_slice] <;> omega

theorem framePacket_valid {p : Params} {fr : List Byte} {n : Nat} (hn : n ≤ maxData)
    (hlen : u16 fr (p.headerOffset + 20) = n) (hwhole : fr.length = p.headerOffset + 23 + n)
    (hsum : xor8 (slice fr p.headerOffset (p.headerOffset + 22 + n)) = byteAt fr (p.headerOffset + 22 + n)) :
    (framePacket p fr n).valid = true := by
  have hdata : (framePacket p fr n).data.length = n := by
    rw [framePacket, slice_length (by omega)]
    omega
  rw [packet_valid_iff, framePacket_dataLength hn, hdata, framePacket_dataUnit hn hlen hwhole, hsum]
  refine ⟨?_, rfl, hn, rfl⟩
  rw [framePacket, slice_length (by omega)]
  omega

/-- A whole frame that is taken gives a valid packet or none (R36, R126). -/
theorem takeFrame_packets_valid {p : Params} {d : Decoder} {q : Packet}
    (hn : u16 d.buf (p.headerOffset + 20) ≤ maxData)
    (hwhole : p.headerOffset + 23 + u16 d.buf (p.headerOffset + 20) ≤ d.buf.length)
    (hq : .pkt q ∈ (takeFrame p d (u16 d.buf (p.headerOffset + 20))).records) : q.valid = true := by
  generalize hlen : u16 d.buf (p.headerOffset + 20) = n at *
  rcases takeFrame_cases p d n with ⟨e, hsum⟩ | ⟨e, -⟩
  · obtain rfl : q = framePacket p (d.buf.take (p.headerOffset + 23 + n)) n := by simpa [e] using hq
    refine framePacket_valid hn ?_ ?_ hsum
    · rw [u16_take (by omega), hlen]
    · rw [List.length_take, Nat.min_eq_left hwhole]
  · simp [e] at hq

theorem drainTurn_packets_valid (p : Params) (d : Decoder) (q : Packet) (hq : .pkt q ∈ (drainTurn p d).records) :
    q.valid = true := by
  rcases drainTurn_cases p d with ⟨-, e⟩ | ⟨-, -, e⟩ | ⟨-, off, -, -, e⟩ | ⟨-, -, -, e⟩ | ⟨-, -, -, -, e⟩ |
    ⟨-, -, hn, hwhole, e⟩ <;> rw [e] at hq
  case inr.inr.inr.inr.inr => exact takeFrame_packets_valid hn hwhole hq
  all_goals simp at hq

/-- Every packet of a DRAIN is valid (R36). -/
theorem drain_packets_valid (p : Params) (d : Decoder) (q : Packet) (hq : .pkt q ∈ (drain p d).2) : q.valid = true := by
  refine drain_of_turn (R := fun _ _ rs => ∀ q, .pkt q ∈ rs → q.valid = true) (drainTurn_packets_valid p) ?_ d q hq
  intro d d' e rs rs' hfirst hrest q hq
  exact (List.mem_append.mp hq).elim (hfirst q) (hrest q)

/-- The acknowledgement MKRESP builds is valid (R36, R97). -/
theorem makeResponse_valid (code cmd yy mo dd hh mi ss : Byte) {vin : List Byte} (hvin : vin.length = 17) :
    (makeResponse code cmd vin yy mo dd hh mi ss).valid = true := by
  rw [packet_valid_iff]
  exact ⟨hvin, rfl, (by decide : 6 ≤ maxData), rfl⟩

/-- MKRESP answers BADARG or one packet (R97). -/
theorem execMkresp_tx {code cmd yy mo dd hh mi ss : Byte} {vin : List Byte} {s t : State}
    (h : execMkresp code cmd vin yy mo dd hh mi ss s = .next t) :
    t.tx = s.tx ++ [[0x03#8]] ∨ t.tx = s.tx ++ [0x00#8 :: (makeResponse code cmd vin yy mo dd hh mi ss).bytes] := by
  rw [respond_inv ((execMkresp_eq code cmd vin yy mo dd hh mi ss s).symm.trans h), mkrespAnswer]
  split
  · exact .inl rfl
  · exact .inr rfl

/-- Settles O32: a frame becomes a packet only when it is whole, short enough and its checksum matches, and MKRESP computes the
checksum of the packet it builds. -/
theorem packetsAreValid : Obligations.PacketsAreValid := by
  refine ⟨packet_valid_iff, drain_packets_valid, ?_⟩
  intro s t code cmd yy mo dd hh mi ss vin hvin h
  obtain hbad | hok := execMkresp_tx h
  · exact .inl hbad
  · exact .inr ⟨_, makeResponse_valid code cmd yy mo dd hh mi ss hvin, hok⟩

/-! ## What a DRAIN reads -/

/-- What a turn shows, its counters left out: the new STOP when it ends the DRAIN, the buffer, and the records. -/
def Turn.visible : Turn → Option Stop × List Byte × List Record
  | .stopped d rs => (some d.stop, d.buf, rs)
  | .again d rs => (none, d.buf, rs)

theorem takeFrame_visible (p : Params) {d e : Decoder} (h : d.buf = e.buf) (n : Nat) :
    (takeFrame p d n).visible = (takeFrame p e n).visible := by
  simp only [takeFrame, h]
  split <;> simp [Turn.visible, h]

/-- What a turn shows depends on the buffer alone. -/
theorem drainTurn_visible (p : Params) {d e : Decoder} (h : d.buf = e.buf) :
    (drainTurn p d).visible = (drainTurn p e).visible := by
  have htake := takeFrame_visible p h (u16 e.buf (p.headerOffset + 20))
  unfold drainTurn
  rw [h]
  split
  · simp [stopShort, Turn.visible, h]
  split
  · simp [flush, Turn.visible, h]
  dsimp only
  split_ifs
  · simp [skipPrefix, Turn.visible, h]
  · simp [skipOversize, Turn.visible, h]
  · simp [stopPartial, Turn.visible, h]
  · exact htake

theorem drainTurn_stopped_of_buf_eq {p : Params} {d e d' : Decoder} {rs : List Record} (h : d.buf = e.buf)
    (ht : drainTurn p d = .stopped d' rs) :
    ∃ e', drainTurn p e = .stopped e' rs ∧ d'.buf = e'.buf ∧ d'.stop = e'.stop := by
  have hv := drainTurn_visible p h
  cases he : drainTurn p e with
  | stopped e' rs' =>
    simp only [ht, he, Turn.visible, Prod.mk.injEq, Option.some.injEq] at hv
    obtain ⟨hstop, hbuf, rfl⟩ := hv
    exact ⟨e', rfl, hbuf, hstop⟩
  | again e' rs' => simp [ht, he, Turn.visible] at hv

theorem drainTurn_again_of_buf_eq {p : Params} {d e d' : Decoder} {rs : List Record} (h : d.buf = e.buf)
    (ht : drainTurn p d = .again d' rs) : ∃ e', drainTurn p e = .again e' rs ∧ d'.buf = e'.buf := by
  have hv := drainTurn_visible p h
  cases he : drainTurn p e with
  | stopped e' rs' => simp [ht, he, Turn.visible] at hv
  | again e' rs' =>
    simp only [ht, he, Turn.visible, Prod.mk.injEq, true_and] at hv
    obtain ⟨hbuf, rfl⟩ := hv
    exact ⟨e', rfl, hbuf⟩

/-- The results of two DRAINs agree but for the counters. -/
def sameButCounters (r r' : Decoder × List Record) : Prop :=
  r.2 = r'.2 ∧ r.1.buf = r'.1.buf ∧ r.1.stop = r'.1.stop

/-- Turn by turn, two DRAINs of the same buffer do the same. -/
theorem drain_sameButCounters (p : Params) (d : Decoder) : ∀ e, d.buf = e.buf → sameButCounters (drain p d) (drain p e) := by
  refine drain_induction p (P := fun d r => ∀ e, d.buf = e.buf → sameButCounters r (drain p e)) ?_ ?_ d
  · intro d d' rs ht e h
    obtain ⟨e', he, hbuf, hstop⟩ := drainTurn_stopped_of_buf_eq h ht
    rw [drain_stopped he]
    exact ⟨rfl, hbuf, hstop⟩
  · intro d d' rs ht ih e h
    obtain ⟨e', he, hbuf⟩ := drainTurn_again_of_buf_eq h ht
    obtain ⟨hrs, hrest⟩ := ih e' hbuf
    rw [drain_again he]
    exact ⟨congrArg (rs ++ ·) hrs, hrest⟩

/-- Settles O36: no turn of a DRAIN reads the counters or STOP. -/
theorem drainReadsOnlyTheBuffer : Obligations.DrainReadsOnlyTheBuffer := drain_sameButCounters

/-! ## Rights and invariants of commands and steps -/

/-- An empty buffer is within any capacity (R23). -/
theorem fits_zero (p : Params) : p.fits 0 = true := by
  unfold Params.fits
  split <;> simp

theorem drain_length_le (p : Params) (d : Decoder) : (drain p d).1.buf.length ≤ d.buf.length := by
  obtain ⟨n, hn⟩ := drain_buf p d
  rw [hn, List.length_drop]
  omega

/-- FEED and DECODE check the capacity before they append; no other command makes the buffer longer (R23, R112). -/
theorem DecoderStep.fits {p : Params} {d e : Decoder} {i : Instr} (h : DecoderStep p d i e)
    (hd : p.fits d.buf.length = true) : p.fits e.buf.length = true := by
  cases h with
  | kept | cleared => exact hd
  | fed b hfits => rwa [append_buf, List.length_append]
  | drained => exact fits_mono (drain_length_le p d) hd
  | decoded b hfits =>
    refine fits_mono (drain_length_le p _) ?_
    rwa [append_buf, List.length_append]
  | wasReset => exact fits_zero p

/-- Settles O54: the capacity is never changed, and every way a step can change the decoder keeps LEN within it. -/
theorem stepKeepsLenWithinCap : Obligations.StepKeepsLenWithinCap := by
  intro s t hs h
  obtain ⟨i, hdec⟩ := step_decoder h
  rw [State.withinCap, step_params h]
  exact hdec.fits hs

theorem DecoderStep.feed_buf {p : Params} {d e : Decoder} {b : List Byte} (h : DecoderStep p d (.feed b) e) :
    e.buf = d.buf ∨ e.buf = d.buf ++ b := by
  cases h with
  | kept => exact .inl rfl
  | fed => exact .inr rfl

theorem DecoderStep.drain_buf {p : Params} {d e : Decoder} (h : DecoderStep p d .drain e) : ∃ n, e.buf = d.buf.drop n := by
  cases h with
  | kept _ notDrain => exact absurd rfl notDrain
  | drained => exact Machine.drain_buf p d

theorem DecoderStep.decode_buf {p : Params} {d e : Decoder} {b : List Byte} (h : DecoderStep p d (.decode b) e) :
    e.buf = d.buf ∨ ∃ n, e.buf = (d.buf ++ b).drop n := by
  cases h with
  | kept => exact .inl rfl
  | decoded => exact .inr (Machine.drain_buf p (d.append b))

/-- Settles O33: FEED appends, DRAIN drops from the front, DECODE does the one and then the other. -/
theorem bufferIsAQueue : Obligations.BufferIsAQueue :=
  ⟨fun _ _ _ h => (exec_decoder h).feed_buf, fun _ _ h => (exec_decoder h).drain_buf,
    fun _ _ _ h => (exec_decoder h).decode_buf⟩

/-- STOP is written by DRAIN, DECODE and RESET only (R25, R33). -/
theorem DecoderStep.stop_writers {p : Params} {d e : Decoder} {i : Instr} (h : DecoderStep p d i e)
    (hne : e.stop ≠ d.stop) : i = .drain ∨ (∃ b, i = .decode b) ∨ i = .reset := by
  cases h with
  | kept | fed | cleared => exact absurd rfl hne
  | drained => exact .inl rfl
  | decoded b => exact .inr (.inl ⟨b, rfl⟩)
  | wasReset => exact .inr (.inr rfl)

/-- The counters are written by DRAIN, DECODE, CLRCNT and RESET only (R26, R33). -/
theorem DecoderStep.counter_writers {p : Params} {d e : Decoder} {i : Instr} (h : DecoderStep p d i e)
    (hne : ¬(e.cntPkt = d.cntPkt ∧ e.cntCsum = d.cntCsum ∧ e.cntOver = d.cntOver ∧ e.cntFlush = d.cntFlush ∧
      e.cntSkipb = d.cntSkipb)) : i = .drain ∨ (∃ b, i = .decode b) ∨ i = .clrcnt ∨ i = .reset := by
  cases h with
  | kept | fed => exact absurd ⟨rfl, rfl, rfl, rfl, rfl⟩ hne
  | drained => exact .inl rfl
  | decoded b => exact .inr (.inl ⟨b, rfl⟩)
  | cleared => exact .inr (.inr (.inl rfl))
  | wasReset => exact .inr (.inr (.inr rfl))

/-- BUF is written by FEED, DRAIN, DECODE and RESET only (R22, R33). -/
theorem DecoderStep.buf_writers {p : Params} {d e : Decoder} {i : Instr} (h : DecoderStep p d i e)
    (hne : e.buf ≠ d.buf) : (∃ b, i = .feed b) ∨ i = .drain ∨ (∃ b, i = .decode b) ∨ i = .reset := by
  cases h with
  | kept | cleared => exact absurd rfl hne
  | fed b => exact .inl ⟨b, rfl⟩
  | drained => exact .inr (.inl rfl)
  | decoded b => exact .inr (.inr (.inl ⟨b, rfl⟩))
  | wasReset => exact .inr (.inr (.inr rfl))

/-- Settles O53: the writers of each part of the decoder, and the parameters that CFG and CAP read. -/
theorem writeRights : Obligations.WriteRights := by
  intro i s t h
  have hdec := exec_decoder h
  rw [exec_params h]
  exact ⟨hdec.stop_writers, hdec.counter_writers, hdec.buf_writers, rfl, rfl⟩

/-! ## The serializer reads no decoder state (R34) -/

/-- Settles O47: each serializer command is one `respond` of an answer made of its operands and the parameters. -/
theorem serializerIsPure : Obligations.SerializerIsPure := by
  intro i p hi
  cases i with
  | encode cmd ack vin enc dlen data =>
    exact ⟨(encodeAnswer p cmd ack vin enc dlen data).bytes, fun s hs => hs ▸ execEncode_eq cmd ack vin enc dlen data s⟩
  | mkresp code cmd vin yy mo dd hh mi ss =>
    exact ⟨(mkrespAnswer code cmd vin yy mo dd hh mi ss).bytes, fun s _ => execMkresp_eq code cmd vin yy mo dd hh mi ss s⟩
  | csum b => exact ⟨(Response.ok (.xor (xor8 b))).bytes, fun _ _ => rfl⟩
  | nop | feed | drain | decode | rdreg | clrcnt | reset | illegalLow | illegalMid | illegalHigh => cases hi

/-! ## Status registers and reset -/

/-- The fields of CFG (R28). CFG reads three Boolean parameters, so there are eight blocks to evaluate. -/
theorem cfgValue_fields (p : Params) :
    (cfgValue p).getLsbD 0 = p.unitLenField ∧ (cfgValue p).getLsbD 1 = p.retainTail ∧
    (cfgValue p).getLsbD 2 = p.encStrict ∧ (cfgValue p).extractLsb' 3 5 = 0#5 ∧
    (cfgValue p).extractLsb' 8 8 = BitVec.ofNat 8 p.minLen ∧ (cfgValue p).extractLsb' 16 16 = 0x0190#16 := by
  unfold cfgValue Params.minLen Params.headerOffset
  generalize p.unitLenField = u, p.retainTail = r, p.encStrict = e
  revert u r e
  decide

/-- MIN_LEN of the two layouts (R6). -/
theorem minLen_of_layout (p : Params) : p.minLen = if p.unitLenField then 27 else 25 := by
  rw [minLen_eq]
  obtain ⟨hu, hh⟩ | ⟨hu, hh⟩ := headerOffset_cases p <;> simp [hu, hh]

/-- Settles O12: the fields of CFG are those of R28 for every block, and steps keep the parameters they come from. -/
theorem cfgReportsTheParameters : Obligations.CfgReportsTheParameters := by
  refine ⟨fun p => ?_, by decide, by decide, fun s t h => by rw [step_params h]⟩
  obtain ⟨hunit, htail, hstrict, hzero, hmin, hmax⟩ := cfgValue_fields p
  exact ⟨hunit, htail, hstrict, hzero, hmin, hmax, minLen_of_layout p⟩

theorem readReg_cfg (s : State) : readReg s 0x00#8 = cfgValue s.params := rfl

theorem readReg_cap (s : State) : readReg s 0x08#8 = capValue s.params := rfl

/-- A reserved index reads 0 (R32). -/
theorem readReg_reserved (s : State) {idx : Byte} (h : 0x09#8 ≤ idx) : readReg s idx = 0#32 := by
  unfold readReg
  repeat rw [if_neg (by bv_omega)]

/-- Power-on and RESET alike give the decoder's reset state and keep the parameters (R37, R170, R171). -/
theorem reset_gives {s t : State} (h : t = powerOnReset s ∨ exec .reset s = .next t) :
    t.dec = Decoder.reset ∧ t.params = s.params := by
  obtain rfl | hexec := h
  · exact ⟨rfl, rfl⟩
  · cases hexec
    exact ⟨rfl, rfl⟩

/-- Settles O15: everything the table of R37 names is a part of the reset decoder or reads the parameters. -/
theorem resetStateIsAsStated : Obligations.ResetStateIsAsStated := by
  intro s t h
  obtain ⟨hdec, hparams⟩ := reset_gives h
  rw [readReg_cfg, readReg_cap, hdec, hparams]
  exact ⟨rfl, rfl, rfl, rfl, rfl, rfl, rfl, rfl, rfl, rfl, rfl, fun _ => readReg_reserved t⟩

/-- Settles O16: the reset state is a fixed point of power-on, and its two parameter registers evaluate to the values of the
default parameters. -/
theorem coreResetIsPowerOnWithDefaults : Obligations.CoreResetIsPowerOnWithDefaults :=
  ⟨rfl, rfl, rfl, by decide, by decide⟩

theorem powerOnReset_withinCap (s : State) : (powerOnReset s).withinCap = true := fits_zero s.params

/-- An empty port holds the partial command that lacks its opcode (R76). -/
theorem powerOnReset_portHoldsOne (s : State) : (powerOnReset s).portHoldsOne = true := rfl

/-- Settles O56: both invariants hold after any power-on, and the reset state is one (`powerOnReset State.reset`). -/
theorem resetMeetsTheInvariants : Obligations.ResetMeetsTheInvariants :=
  ⟨powerOnReset_withinCap State.reset, powerOnReset_portHoldsOne State.reset,
    fun s => ⟨powerOnReset_withinCap s, powerOnReset_portHoldsOne s⟩⟩

end Machine

end Sys2Proof

namespace Sys2Proof

namespace Machine

/-! ## The order of commands (R46, R50) -/

/-- Settles O6: the command the port reads selects the arm of `step` that executes it. -/
theorem stepRunsDecodedCommand : Obligations.StepRunsDecodedCommand := by
  intro s i rest hcmd
  simp only [step, hcmd]

/-- `exec_respond` for a command that ran from `s`: it added one response, and after any other responses it gives that response
and the rest of its next state again. -/
theorem exec_next_of_tx {i : Instr} {s t : State} (h : exec i s = .next t) :
    ∃ y : List Byte, t.tx = s.tx ++ [y] ∧ ∀ tx, exec i { s with tx := tx } = .next { t with tx := tx ++ [y] } := by
  obtain ⟨r, d, -, hexec⟩ := exec_respond i s
  have ht : t = { s with dec := d, tx := s.tx ++ [r.bytes] } := respond_inv ((hexec s.tx).symm.trans h)
  subst ht
  exact ⟨r.bytes, rfl, hexec⟩

/-- Settles O48: the serializer command only appends its answer, which every state with these parameters gets (R34), and the other
command keeps the parameters and does not read the responses. -/
theorem serializerCommandsCommute : Obligations.SerializerCommandsCommute := by
  intro i j s t u hi hit hju
  obtain ⟨x, hser⟩ := serializerIsPure i s.params hi
  obtain ⟨y, huy, hother⟩ := exec_next_of_tx hju
  have ht : t = { s with tx := s.tx ++ [x] } := Host.Outcome.next.inj (hit.symm.trans (hser s rfl))
  refine ⟨x, y, ht ▸ rfl, huy, ?_, ?_⟩
  · rw [ht, hother, List.append_assoc]
    rfl
  · rw [hser u (exec_params hju), huy, List.append_assoc]
    rfl

end Machine

end Sys2Proof

namespace Sys2Proof

/-! ## Fields behind a part of known length -/

theorem slice_zero (s : List Byte) (n : Nat) : slice s 0 n = s.take n := rfl

/-- What stands between two parts is the slice between their places. -/
theorem slice_middle {a m c : List Byte} {i j : Nat} (hi : a.length = i) (hj : i + m.length = j) :
    slice (a ++ m ++ c) i j = m := by
  rw [slice, List.append_assoc, List.drop_left' hi, List.take_left' (by omega)]

/-- The byte `i` places behind a part of `n` bytes. -/
theorem byteAt_behind {s : List Byte} {n : Nat} (h : s.length = n) (t : List Byte) (i : Nat) :
    byteAt (s ++ t) (n + i) = byteAt t i := by
  rw [byteAt_append_right (by omega), h, Nat.add_sub_cancel_left]

/-- The 16-bit field `i` places behind a part of `n` bytes. -/
theorem u16_behind {s : List Byte} {n : Nat} (h : s.length = n) (t : List Byte) (i : Nat) :
    u16 (s ++ t) (n + i) = u16 t i := h ▸ u16_append_right s t i

/-- A 16-bit length field holds the length of every string that fits it. -/
theorem fitsU16_iff {b : List Byte} : fitsU16 b = true ↔ b.length < 65536 := decide_eq_true_iff

theorem isVin_iff {vin : List Byte} : isVin vin = true ↔ vin.length = 17 := beq_iff_eq

/-! ## Reading back what was encoded (R72) -/

/-- Format FB reads back its byte string. -/
theorem decodeFB_encodeFB (mk : List Byte → Instr) {b : List Byte} (rest : List Byte) (hb : fitsU16 b = true) :
    decodeFB mk (encodeFB b ++ rest) = .command (mk b) rest := by
  have hk : u16 (encodeFB b ++ rest) 0 = b.length := by
    rw [encodeFB, List.append_assoc, u16_be16_of_lt (fitsU16_iff.mp hb)]
  have hdrop : (encodeFB b ++ rest).drop 2 = b ++ rest := rfl
  have htwo : ¬(encodeFB b ++ rest).length < 2 := by simp [encodeFB]; omega
  have hwhole : ¬(b ++ rest).length < b.length := by simp
  simp only [decodeFB, htwo, if_false, hk, hdrop, hwhole, List.take_left, List.drop_left]

/-- The 19 bytes that the operands of formats FE and FR begin with: two bytes and the VIN. -/
theorem vinHead_length (a b : Byte) {vin : List Byte} (hv : isVin vin = true) : ([a, b] ++ vin).length = 19 := by
  simp [isVin_iff.mp hv]

theorem slice_vinHead (a b : Byte) {vin : List Byte} (hv : isVin vin = true) (t : List Byte) :
    slice ([a, b] ++ vin ++ t) 2 19 = vin := slice_middle rfl (by rw [isVin_iff.mp hv])

/-- Format FE reads back its operands. -/
theorem decodeFE_operands (cmd ack enc : Byte) (dlen : U16) {vin data : List Byte} (rest : List Byte)
    (hv : isVin vin = true) (hd : fitsU16 data = true) :
    decodeFE ([cmd, ack] ++ vin ++ (enc :: (be16 dlen.toNat ++ (be16 data.length ++ (data ++ rest))))) =
      .command (.encode cmd ack vin enc dlen data) rest := by
  have hhead := vinHead_length cmd ack hv
  have hvin := slice_vinHead cmd ack hv
  have henc := byteAt_behind hhead
  set tail := enc :: (be16 dlen.toNat ++ (be16 data.length ++ (data ++ rest)))
  have hlen : ¬([cmd, ack] ++ vin ++ tail).length < 24 := by simp [tail, isVin_iff.mp hv]; omega
  have hdlen : u16 ([cmd, ack] ++ vin ++ tail) 20 = dlen.toNat :=
    (u16_behind hhead tail 1).trans (u16_be16_of_lt dlen.isLt (be16 data.length ++ (data ++ rest)))
  have hplen : u16 ([cmd, ack] ++ vin ++ tail) 22 = data.length :=
    (u16_behind hhead tail 3).trans (u16_be16_of_lt (fitsU16_iff.mp hd) (data ++ rest))
  have hdrop : ([cmd, ack] ++ vin ++ tail).drop 24 = data ++ rest := by
    rw [List.drop_append, hhead, List.drop_eq_nil_of_le (by omega)]; rfl
  have hwhole : ¬(data ++ rest).length < data.length := by simp
  simp only [decodeFE, hlen, if_false, hdlen, hplen, hdrop, hwhole, List.take_left, List.drop_left, hvin, henc tail 0]
  simp [tail]

/-- Format FR reads back its operands. -/
theorem decodeFR_operands (code cmd yy mo dd hh mi ss : Byte) {vin : List Byte} (rest : List Byte)
    (hv : isVin vin = true) :
    decodeFR ([code, cmd] ++ vin ++ ([yy, mo, dd, hh, mi, ss] ++ rest)) =
      .command (.mkresp code cmd vin yy mo dd hh mi ss) rest := by
  have hhead := vinHead_length code cmd hv
  have hvin := slice_vinHead code cmd hv
  have hbyte := byteAt_behind hhead ([yy, mo, dd, hh, mi, ss] ++ rest)
  have hlen : ¬([code, cmd] ++ vin ++ ([yy, mo, dd, hh, mi, ss] ++ rest)).length < 25 := by
    rw [List.length_append, hhead]; simp; omega
  have hdrop : ([code, cmd] ++ vin ++ ([yy, mo, dd, hh, mi, ss] ++ rest)).drop 25 = rest := by
    rw [List.drop_append, hhead, List.drop_eq_nil_of_le (by omega)]; rfl
  simp only [decodeFR, hlen, if_false, hvin, hdrop, hbyte 0, hbyte 1, hbyte 2, hbyte 3, hbyte 4, hbyte 5]
  rfl

/-- The opcodes that have a row of the opcode map (R73). -/
def assignedOpcodes : List Byte := [0x00#8, 0x01#8, 0x02#8, 0x03#8, 0x10#8, 0x11#8, 0x12#8, 0x20#8, 0x21#8, 0xFF#8]

/-- Every other opcode is in one of the three ranges of R75. -/
theorem not_mem_assignedOpcodes_iff {op : Byte} : op ∉ assignedOpcodes ↔
    (0x04#8 ≤ op ∧ op ≤ 0x0F#8) ∨ (0x13#8 ≤ op ∧ op ≤ 0x1F#8) ∨ (0x22#8 ≤ op ∧ op ≤ 0xFE#8) := by
  simp only [assignedOpcodes, List.mem_cons, List.not_mem_nil, or_false]
  bv_omega

/-- An opcode without a row is a command of one byte (R75). -/
theorem decodeCmd_unassigned {op : Byte} (rest : List Byte) (h : op ∉ assignedOpcodes) :
    decodeCmd (op :: rest) = .command (decodeUnassigned op) rest := by
  simp only [assignedOpcodes, List.mem_cons, List.not_mem_nil, or_false, not_or] at h
  obtain ⟨h00, h01, h02, h03, h10, h11, h12, h20, h21, hFF⟩ := h
  simp only [decodeCmd, h00, h01, h02, h03, h10, h11, h12, h20, h21, hFF, if_false]

theorem wellFormed_illegalLow {op : Byte} : (Instr.illegalLow op).wellFormed = true ↔ 0x04#8 ≤ op ∧ op ≤ 0x0F#8 := by
  simp [Instr.wellFormed]

theorem wellFormed_illegalMid {op : Byte} : (Instr.illegalMid op).wellFormed = true ↔ 0x13#8 ≤ op ∧ op ≤ 0x1F#8 := by
  simp [Instr.wellFormed]

theorem wellFormed_illegalHigh {op : Byte} : (Instr.illegalHigh op).wellFormed = true ↔ 0x22#8 ≤ op ∧ op ≤ 0xFE#8 := by
  simp [Instr.wellFormed]

theorem decodeUnassigned_low {op : Byte} (h : op ≤ 0x0F#8) : decodeUnassigned op = .illegalLow op := if_pos h

theorem decodeUnassigned_mid {op : Byte} (h : 0x13#8 ≤ op) (h' : op ≤ 0x1F#8) :
    decodeUnassigned op = .illegalMid op := by
  rw [decodeUnassigned, if_neg (by bv_omega), if_pos h']

theorem decodeUnassigned_high {op : Byte} (h : 0x22#8 ≤ op) : decodeUnassigned op = .illegalHigh op := by
  rw [decodeUnassigned, if_neg (by bv_omega), if_neg (by bv_omega)]

/-- Settles O2: each format reads back its operands, and each opcode selects its own format. -/
theorem decodeEncodeRoundTrip : Obligations.DecodeEncodeRoundTrip := by
  intro i rest hwf
  cases i with
  | nop | drain | clrcnt | reset | rdreg => rfl
  | feed b => exact decodeFB_encodeFB .feed rest hwf
  | decode b => exact decodeFB_encodeFB .decode rest hwf
  | csum b => exact decodeFB_encodeFB .csum rest hwf
  | encode cmd ack vin enc dlen data =>
    obtain ⟨hv, hd⟩ := (Bool.and_eq_true_iff (x := isVin vin)).mp hwf
    have hops : encodeCmd (.encode cmd ack vin enc dlen data) ++ rest =
        0x10#8 :: ([cmd, ack] ++ vin ++ (enc :: (be16 dlen.toNat ++ (be16 data.length ++ (data ++ rest))))) := by
      simp [encodeCmd]
    exact hops ▸ decodeFE_operands cmd ack enc dlen rest hv hd
  | mkresp code cmd vin yy mo dd hh mi ss =>
    have hops : encodeCmd (.mkresp code cmd vin yy mo dd hh mi ss) ++ rest =
        0x11#8 :: ([code, cmd] ++ vin ++ ([yy, mo, dd, hh, mi, ss] ++ rest)) := by simp [encodeCmd]
    exact hops ▸ decodeFR_operands code cmd yy mo dd hh mi ss rest hwf
  | illegalLow op =>
    have hop := wellFormed_illegalLow.mp hwf
    have hread := decodeCmd_unassigned rest (not_mem_assignedOpcodes_iff.mpr (.inl hop))
    rw [decodeUnassigned_low hop.2] at hread
    exact hread
  | illegalMid op =>
    have hop := wellFormed_illegalMid.mp hwf
    have hread := decodeCmd_unassigned rest (not_mem_assignedOpcodes_iff.mpr (.inr (.inl hop)))
    rw [decodeUnassigned_mid hop.1 hop.2] at hread
    exact hread
  | illegalHigh op =>
    have hop := wellFormed_illegalHigh.mp hwf
    have hread := decodeCmd_unassigned rest (not_mem_assignedOpcodes_iff.mpr (.inr (.inr hop)))
    rw [decodeUnassigned_high hop.1] at hread
    exact hread

/-! ## What the port reads (R70, R76) -/

/-- A byte string that a length operand counted fits that operand. -/
theorem fitsU16_take (s t : List Byte) (i : Nat) : fitsU16 (t.take (u16 s i)) = true :=
  fitsU16_iff.mpr (lt_of_le_of_lt (List.length_take_le _ _) (u16_lt s i))

theorem isVin_slice {s : List Byte} (h : 19 ≤ s.length) : isVin (slice s 2 19) = true :=
  isVin_iff.mpr (slice_length h)

/-- What format FB reads is a byte string that its length operand can count, and the bytes are the string's encoding. -/
theorem decodeFB_command {mk : List Byte → Instr} {ops rest : List Byte} {i : Instr}
    (h : decodeFB mk ops = .command i rest) : ∃ b, i = mk b ∧ fitsU16 b = true ∧ ops = encodeFB b ++ rest := by
  simp only [decodeFB] at h
  split_ifs at h with htwo hwhole
  cases h
  refine ⟨_, rfl, fitsU16_take _ _ _, ?_⟩
  rw [encodeFB, List.length_take_of_le (Nat.le_of_not_lt hwhole), be16_u16 (by omega), slice_zero, List.append_assoc,
    List.take_append_drop, List.take_append_drop]

/-- What format FE reads is a well-formed ENCODE, and the bytes are its operands'. -/
theorem decodeFE_command {ops rest : List Byte} {i : Instr} (h : decodeFE ops = .command i rest) :
    i.wellFormed = true ∧ 0x10#8 :: ops = encodeCmd i ++ rest := by
  simp only [decodeFE] at h
  split_ifs at h with hlen hwhole
  cases h
  refine ⟨Bool.and_eq_true_iff.mpr ⟨isVin_slice (by omega), fitsU16_take _ _ _⟩, congrArg (0x10#8 :: ·) ?_⟩
  have hdlen : (BitVec.ofNat 16 (u16 ops 20)).toNat = u16 ops 20 := Nat.mod_eq_of_lt (u16_lt ops 20)
  have hhead : [byteAt ops 0, byteAt ops 1] ++ slice ops 2 19 ++ [byteAt ops 19] ++ be16 (u16 ops 20) ++ be16 (u16 ops 22) =
      ops.take 24 := by
    rw [be16_u16 (by omega), be16_u16 (by omega), ← slice_pair (by omega), ← slice_singleton (by omega), slice_append_slice,
      slice_append_slice, slice_append_slice, slice_append_slice, slice_zero] <;> omega
  change ops = _ ++ _
  rw [hdlen, List.length_take_of_le (Nat.le_of_not_lt hwhole), hhead, List.append_assoc, List.take_append_drop,
    List.take_append_drop]

/-- What format FR reads is a well-formed MKRESP, and the bytes are its operands'. -/
theorem decodeFR_command {ops rest : List Byte} {i : Instr} (h : decodeFR ops = .command i rest) :
    i.wellFormed = true ∧ 0x11#8 :: ops = encodeCmd i ++ rest := by
  simp only [decodeFR] at h
  split_ifs at h with hlen
  cases h
  refine ⟨isVin_slice (by omega), congrArg (0x11#8 :: ·) ?_⟩
  have htime : [byteAt ops 19, byteAt ops 20, byteAt ops 21, byteAt ops 22, byteAt ops 23, byteAt ops 24] = slice ops 19 25 := by
    rw [← slice_append_slice ops (b := 21) (by omega) (by omega), slice_pair (by omega),
      ← slice_append_slice ops (b := 23) (by omega) (by omega), slice_pair (by omega), slice_pair (by omega)]
    rfl
  change ops = _ ++ _
  rw [htime, ← slice_pair (by omega), slice_append_slice, slice_append_slice, slice_zero, List.take_append_drop] <;> omega

/-- What format FX reads is an RDREG of the first operand byte. -/
theorem decodeFX_command {ops rest : List Byte} {i : Instr} (h : decodeFX ops = .command i rest) :
    ∃ idx, i = .rdreg idx ∧ ops = idx :: rest := by
  cases ops with
  | nil => cases h
  | cons idx ops =>
    cases h
    exact ⟨idx, rfl, rfl⟩

/-- An opcode without a row is a well-formed command and all of its bytes (R75). -/
theorem decodeUnassigned_spec {op : Byte} (h : op ∉ assignedOpcodes) :
    (decodeUnassigned op).wellFormed = true ∧ encodeCmd (decodeUnassigned op) = [op] := by
  obtain hop | hop | hop := not_mem_assignedOpcodes_iff.mp h
  · rw [decodeUnassigned_low hop.2]
    exact ⟨wellFormed_illegalLow.mpr hop, rfl⟩
  · rw [decodeUnassigned_mid hop.1 hop.2]
    exact ⟨wellFormed_illegalMid.mpr hop, rfl⟩
  · rw [decodeUnassigned_high hop.1]
    exact ⟨wellFormed_illegalHigh.mpr hop, rfl⟩

/-- Settles O3: row by row of the opcode map, the bytes that a format takes are those it would write. -/
theorem decodedBytesAreTheCommand : Obligations.DecodedBytesAreTheCommand := by
  intro bs rest i h
  cases bs with
  | nil => cases h
  | cons op ops =>
    by_cases hop : op ∈ assignedOpcodes
    · simp only [assignedOpcodes, List.mem_cons, List.not_mem_nil, or_false] at hop
      obtain rfl | rfl | rfl | rfl | rfl | rfl | rfl | rfl | rfl | rfl := hop
      · obtain ⟨rfl, rfl⟩ := Parse.command.inj h
        exact ⟨rfl, rfl⟩
      · obtain ⟨b, rfl, hb, rfl⟩ := decodeFB_command h
        exact ⟨hb, rfl⟩
      · obtain ⟨rfl, rfl⟩ := Parse.command.inj h
        exact ⟨rfl, rfl⟩
      · obtain ⟨b, rfl, hb, rfl⟩ := decodeFB_command h
        exact ⟨hb, rfl⟩
      · exact decodeFE_command h
      · exact decodeFR_command h
      · obtain ⟨b, rfl, hb, rfl⟩ := decodeFB_command h
        exact ⟨hb, rfl⟩
      · obtain ⟨idx, rfl, rfl⟩ := decodeFX_command h
        exact ⟨rfl, rfl⟩
      · obtain ⟨rfl, rfl⟩ := Parse.command.inj h
        exact ⟨rfl, rfl⟩
      · obtain ⟨rfl, rfl⟩ := Parse.command.inj h
        exact ⟨rfl, rfl⟩
    · obtain ⟨rfl, rfl⟩ := Parse.command.inj ((decodeCmd_unassigned ops hop).symm.trans h)
      obtain ⟨hwf, hbytes⟩ := decodeUnassigned_spec hop
      exact ⟨hwf, by rw [hbytes]; rfl⟩

end Sys2Proof

namespace Sys2Proof

/-- Settles O4: were some but not all of a command's bytes a whole command, the bytes of the one would begin with those of the other
(O3), but the port reads only one command from them (O2). -/
theorem partialCommandIsHeld : Obligations.PartialCommandIsHeld := by
  intro i n hwf hn
  cases h : decodeCmd ((encodeCmd i).take n) with
  | needMore w => exact ⟨w, rfl⟩
  | command j rest =>
    obtain ⟨hj, hbytes⟩ := decodedBytesAreTheCommand _ _ _ h
    have hwhole : encodeCmd i ++ [] = encodeCmd j ++ (rest ++ (encodeCmd i).drop n) := by
      rw [← List.append_assoc, ← hbytes, List.take_append_drop, List.append_nil]
    have hread := decodeEncodeRoundTrip i [] hwf
    rw [hwhole, decodeEncodeRoundTrip j _ hj] at hread
    have hnone : (encodeCmd i).drop n = [] := (List.append_eq_nil_iff.mp (Parse.command.inj hread).2).2
    exact absurd (List.drop_eq_nil_iff.mp hnone) (Nat.not_le.mpr hn)

namespace Machine

/-! ## One command at the port (R76) -/

theorem portHoldsOne_iff (s : State) : s.portHoldsOne = true ↔ ∃ w, decodeCmd s.port.dropLast = .needMore w := by
  unfold State.portHoldsOne
  split <;> simp [*]

/-- No command changes the bytes behind it at the port (R54). -/
theorem exec_port {i : Instr} {s t : State} (h : exec i s = .next t) : t.port = s.port := by
  obtain ⟨r, d, -, hexec⟩ := exec_respond i s
  rw [respond_inv ((hexec s.tx).symm.trans h)]

/-- A port that holds one command at most has nothing behind a whole one: a byte more would leave that command whole without the
last byte. -/
theorem portHoldsOne_rest {s : State} {i : Instr} {rest : List Byte} (hs : s.portHoldsOne = true)
    (h : decodeCmd s.port = .command i rest) : rest = [] := by
  obtain ⟨w, hw⟩ := (portHoldsOne_iff s).mp hs
  obtain ⟨hwf, hport⟩ := decodedBytesAreTheCommand _ _ _ h
  by_contra hrest
  rw [hport, List.dropLast_append_of_ne_nil hrest, decodeEncodeRoundTrip i _ hwf] at hw
  cases hw

/-- With a partial command at the port, the host's next byte is the first that can make it whole. -/
theorem awaitHost_portHoldsOne {s : State} {w : Missing} (hs : s.portHoldsOne = true)
    (h : decodeCmd s.port = .needMore w) : (awaitHost s).portHoldsOne = true := by
  unfold awaitHost
  split
  · exact hs
  next e es _ =>
    cases e with
    | byte b => exact (portHoldsOne_iff _).mpr ⟨w, by rw [applyEvent_byte_port, List.dropLast_concat, h]⟩
    | powerOn => exact powerOnReset_portHoldsOne _

/-- With only a partial command at the port, a step waits for the host (R76). -/
theorem step_of_needMore {s : State} {w : Missing} (h : decodeCmd s.port = .needMore w) : step s = .next (awaitHost s) := by
  simp only [step, h]

/-- Settles O55: executing the one command empties the port, and waiting adds at most one byte to a partial command. -/
theorem stepKeepsOneCommandAtPort : Obligations.StepKeepsOneCommandAtPort := by
  intro s t hs hstep
  cases h : decodeCmd s.port with
  | command i rest =>
    have hport : t.port = rest := exec_port ((stepRunsDecodedCommand s i rest h).symm.trans hstep)
    rw [portHoldsOne_iff, hport, portHoldsOne_rest hs h]
    exact ⟨.opcode, rfl⟩
  | needMore w =>
    obtain rfl : awaitHost s = t := Host.Outcome.next.inj ((step_of_needMore h).symm.trans hstep)
    exact awaitHost_portHoldsOne hs h

/-- Settles O7: the three things the host can do next, one by one. -/
theorem stepWaitsForTheHost : Obligations.StepWaitsForTheHost := by
  intro s w h
  rw [step_of_needMore h]
  refine ⟨fun hidle => ?_, fun b es hbyte => ?_, fun es hpower => ?_⟩
  · simp only [awaitHost, hidle]
  · simp only [awaitHost, hbyte, applyEvent]
  · simp only [awaitHost, hpower, applyEvent, powerOnReset]

/-! ## What every command answers -/

/-- An unassigned opcode of any of the three ranges is answered ILLEGAL (R144). -/
theorem exec_decodeUnassigned (op : Byte) (s : State) :
    exec (decodeUnassigned op) s = .next { s with tx := s.tx ++ [[0x04#8]] } := by
  unfold decodeUnassigned
  split_ifs <;> rfl

/-- Settles O5: the port reads the opcode alone as its range's command, and that command is answered ILLEGAL. -/
theorem unassignedOpcodesAnswerIllegal : Obligations.UnassignedOpcodesAnswerIllegal := by
  refine ⟨fun s op rest hop hport => ?_, fun s op => ⟨rfl, rfl, rfl⟩⟩
  have hread : decodeCmd s.port = .command (decodeUnassigned op) rest :=
    hport ▸ decodeCmd_unassigned rest (not_mem_assignedOpcodes_iff.mpr hop)
  rw [stepRunsDecodedCommand s _ rest hread, exec_decodeUnassigned]

/-- The status byte of a command error is 01 to 04 (R74). -/
theorem cmdError_code_le (e : CmdError) : e.code ≤ 0x04#8 := by
  cases e <;> decide

/-- A response is a status byte up to 04, and alone unless it is OK (R71, R74). -/
theorem response_bytes_cases (r : Response) :
    ∃ status result, r.bytes = status :: result ∧ status ≤ 0x04#8 ∧ (status ≠ 0x00#8 → result = []) := by
  cases r with
  | ok r => exact ⟨0x00#8, r.bytes, rfl, by decide, fun h => absurd rfl h⟩
  | error e => exact ⟨e.code, [], rfl, cmdError_code_le e, fun _ => rfl⟩

/-- Settles O51: every command ends in one `respond`, with at most the decoder changed. -/
theorem everyCommandAnswersOnce : Obligations.EveryCommandAnswersOnce := by
  intro i s
  obtain ⟨r, d, -, hexec⟩ := exec_respond i s
  obtain ⟨status, result, hbytes, hle, halone⟩ := response_bytes_cases r
  exact ⟨_, status, result, hexec s.tx, by rw [hbytes], hle, halone, rfl, rfl, rfl⟩

/-- Settles O1: each of the five words evaluates to the command its row and format give. -/
theorem sampleWordsDecode : Obligations.SampleWordsDecode :=
  ⟨by decide, by decide, by decide, by decide, by decide⟩

/-! ## The answers of DRAIN and DECODE (R77, R79) -/

/-- STOP after a DRAIN: one of the three reasons to stop (R25). -/
theorem drain_stop_cases (p : Params) (d : Decoder) :
    (drain p d).1.stop = .short ∨ (drain p d).1.stop = .partialFrame ∨ (drain p d).1.stop = .flushed := by
  refine drain_induction p (P := fun _ r => r.1.stop = .short ∨ r.1.stop = .partialFrame ∨ r.1.stop = .flushed) ?_
    (fun _ _ _ _ ih => ih) d
  intro d d' rs ht
  rcases drainTurn_cases p d with ⟨-, e⟩ | ⟨-, -, e⟩ | ⟨-, off, -, -, e⟩ | ⟨-, -, -, e⟩ | ⟨-, -, -, -, e⟩ |
    ⟨-, -, -, -, e⟩ <;> rw [ht] at e
  · cases e; exact .inl rfl
  · cases e; exact .inr (.inr rfl)
  · cases e
  · cases e
  · cases e; exact .inr (.inl rfl)
  · obtain ⟨htake, -⟩ | ⟨htake, -⟩ := takeFrame_cases p d (u16 d.buf (p.headerOffset + 20)) <;> cases e.trans htake

/-- DRAIN answers OK, its stop reason and its records (R73, R113). -/
theorem exec_drain (s : State) : exec .drain s =
    .next { s with dec := (drain s.params s.dec).1, tx := s.tx ++
      [0x00#8 :: (drain s.params s.dec).1.stop.code.setWidth 8 ::
        (be32 (drain s.params s.dec).2.length ++ (drain s.params s.dec).2.flatMap Record.bytes)] } := rfl

/-- DECODE answers BADARG or FULL, or is DRAIN with its chunk appended (R130). -/
theorem exec_decode_cases (b : List Byte) (s : State) :
    exec (.decode b) s = fail .badarg s ∨ exec (.decode b) s = fail .full s ∨
    exec (.decode b) s = exec .drain { s with dec := s.dec.append b } := by
  rcases feedError_cases s.params s.dec b.length with ⟨-, h⟩ | ⟨-, -, h⟩ | ⟨-, -, h⟩
  · exact .inl (by simp only [exec, execDecode, h])
  · exact .inr (.inl (by simp only [exec, execDecode, h]))
  · exact .inr (.inr (by simp only [exec, execDecode, execDrain, h]))

theorem drain_stop_ne_none (p : Params) (d : Decoder) : (drain p d).1.stop ≠ .none := by
  obtain h | h | h := drain_stop_cases p d <;> simp [h]

/-- Settles O28: the loop ends with one of the three stop reasons, and the answer is the bytes of that reason and of the records;
a DECODE that is not refused is that DRAIN. -/
theorem drainAnswersStopAndRecords : Obligations.DrainAnswersStopAndRecords := by
  refine ⟨fun s t b h => ?_, fun s rest => ?_⟩
  · obtain hbad | hfull | hdrain := exec_decode_cases b s
    · exact .inr (.inl (by rw [respond_inv (hbad.symm.trans h)]; rfl))
    · exact .inl (by rw [respond_inv (hfull.symm.trans h)]; rfl)
    · obtain rfl := Host.Outcome.next.inj (h.symm.trans (hdrain.trans (exec_drain _)))
      exact .inr (.inr ⟨drain_stop_ne_none _ _, ⟨_, rfl⟩, hdrain⟩)
  · intro r records
    have hrecords : r.2.flatMap Record.bytes = records := by
      refine congrArg r.2.flatMap (funext fun x => ?_)
      cases x <;> rfl
    refine ⟨rfl, r.1.stop.code.setWidth 8, ?_, ?_⟩
    · obtain h | h | h := drain_stop_cases s.params s.dec
      · exact .inl ⟨h, by rw [h]; rfl⟩
      · exact .inr (.inl ⟨h, by rw [h]; rfl⟩)
      · exact .inr (.inr ⟨h, by rw [h]; rfl⟩)
    · rw [← hrecords]
      rfl

/-! ## The frame that ENCODE emits (R60, R92) -/

theorem xor8_append (s t : List Byte) : xor8 (s ++ t) = xor8 s ^^^ xor8 t := by
  rw [xor8, List.foldl_append, foldl_xor]
  rfl

theorem frameHeader_length (p : Params) (dlen : U16) : (frameHeader p dlen).length = p.headerOffset := by
  unfold frameHeader Params.headerOffset
  split <;> rfl

theorem dataUnit_length (cmd ack enc : Byte) (dlen : U16) {vin data : List Byte} (hv : vin.length = 17) :
    (dataUnit cmd ack vin enc dlen data).length = 22 + data.length := by
  simp [dataUnit, hv]
  omega

/-- A frame is its header and then, on the port, the packet record of its fields with their checksum (R60, R78). -/
theorem encodeFrame_eq_packet (p : Params) (q : Packet) (hq : q.verify = xor8 q.dataUnit) :
    encodeFrame p q.commandFlag q.ackFlag q.vin q.encryptMode q.dataLength q.data =
      frameHeader p q.dataLength ++ q.bytes := by
  rw [Packet.bytes, hq, encodeFrame, List.append_assoc]
  rfl

/-- The data unit stands in the frame from `H` up to the checksum byte (R60, R61). -/
theorem encodeFrame_slice_dataUnit (p : Params) (cmd ack enc : Byte) (dlen : U16) {vin data : List Byte}
    (hv : vin.length = 17) :
    slice (encodeFrame p cmd ack vin enc dlen data) p.headerOffset (p.headerOffset + 22 + data.length) =
      dataUnit cmd ack vin enc dlen data :=
  slice_middle (frameHeader_length p dlen) (by rw [dataUnit_length cmd ack enc dlen hv]; omega)

theorem encodeFrame_body_length (p : Params) (cmd ack enc : Byte) (dlen : U16) {vin data : List Byte}
    (hv : vin.length = 17) :
    (frameHeader p dlen ++ dataUnit cmd ack vin enc dlen data).length = p.headerOffset + 22 + data.length := by
  rw [List.length_append, frameHeader_length, dataUnit_length cmd ack enc dlen hv]
  omega

/-- The checksum is the byte behind the data unit (R60). -/
theorem encodeFrame_byteAt_checksum (p : Params) (cmd ack enc : Byte) (dlen : U16) {vin data : List Byte}
    (hv : vin.length = 17) :
    byteAt (encodeFrame p cmd ack vin enc dlen data) (p.headerOffset + 22 + data.length) =
      xor8 (dataUnit cmd ack vin enc dlen data) :=
  byteAt_behind (encodeFrame_body_length p cmd ack enc dlen hv) _ 0

/-- The bytes before the checksum are the header and the data unit (R60). -/
theorem xor8_encodeFrame_before_checksum (p : Params) (cmd ack enc : Byte) (dlen : U16) {vin data : List Byte}
    (hv : vin.length = 17) :
    xor8 (slice (encodeFrame p cmd ack vin enc dlen data) 0 (p.headerOffset + 22 + data.length)) =
      xor8 (frameHeader p dlen) ^^^ xor8 (dataUnit cmd ack vin enc dlen data) := by
  rw [slice_zero, encodeFrame, List.take_left' (encodeFrame_body_length p cmd ack enc dlen hv), xor8_append]

/-- Without the data-unit length the header's XOR is 0: its two marker bytes are equal (R68). -/
theorem xor8_frameHeader_short {p : Params} (h : p.unitLenField = false) (dlen : U16) : xor8 (frameHeader p dlen) = 0#8 := by
  simp [frameHeader, h, marker]

/-- With the data-unit length the header's XOR is that of the frame's two bytes behind the marker (R68). -/
theorem xor8_frameHeader_long {p : Params} (h : p.unitLenField = true) (cmd ack enc : Byte) (vin data : List Byte) (dlen : U16) :
    xor8 (frameHeader p dlen) =
      byteAt (encodeFrame p cmd ack vin enc dlen data) 2 ^^^ byteAt (encodeFrame p cmd ack vin enc dlen data) 3 := by
  simp [encodeFrame, frameHeader, h, marker, be16, ← BitVec.xor_assoc]

/-- Settles O44: the data unit is the frame's slice from `H` to the checksum byte, and of the bytes before it only the two of the
data-unit length do not cancel. -/
theorem checksumCoversTheDataUnit : Obligations.ChecksumCoversTheDataUnit := by
  intro p cmd ack enc dlen vin data hv hn frame h fieldwise
  have hunit : slice frame h (h + 22 + dlen.toNat) = dataUnit cmd ack vin enc dlen data :=
    hn ▸ encodeFrame_slice_dataUnit p cmd ack enc dlen hv
  have hbefore : xor8 (slice frame 0 (h + 22 + dlen.toNat)) = xor8 (frameHeader p dlen) ^^^ fieldwise :=
    hn ▸ xor8_encodeFrame_before_checksum p cmd ack enc dlen hv
  refine ⟨?_, hn ▸ encodeFrame_byteAt_checksum p cmd ack enc dlen hv, fun hshort => ?_, fun hlong => ?_⟩
  · exact congrArg xor8 hunit
  · rw [hbefore, xor8_frameHeader_short hshort, BitVec.zero_xor]
  · rw [hbefore, xor8_frameHeader_long hlong cmd ack enc vin data dlen]
    refine ⟨rfl, ?_⟩
    rw [← BitVec.xor_eq_zero_iff, BitVec.xor_assoc, BitVec.xor_self, BitVec.xor_zero, BitVec.xor_eq_zero_iff]

/-! ## RESPOND (R81) -/

/-- MKRESP of time fields that BCD covers answers its packet (R97). -/
theorem exec_mkresp {yy mo dd hh mi ss : Byte} (h : ∀ v ∈ [yy, mo, dd, hh, mi, ss], v.toNat ≤ 99) (code cmd : Byte)
    (vin : List Byte) (s : State) :
    exec (.mkresp code cmd vin yy mo dd hh mi ss) s =
      .next { s with tx := s.tx ++ [0x00#8 :: (makeResponse code cmd vin yy mo dd hh mi ss).bytes] } := by
  have hok : badTime yy mo dd hh mi ss = false :=
    List.any_eq_false.mpr fun v hv => by simpa using h v hv
  rw [exec, execMkresp_eq, mkrespAnswer, hok]
  rfl

/-- ENCODE of fields it does not refuse answers the frame and its length (R94). -/
theorem exec_encode {s : State} {dlen : U16} {data : List Byte} (h : encodeRefused s.params dlen data.length = false)
    (cmd ack enc : Byte) (vin : List Byte) :
    exec (.encode cmd ack vin enc dlen data) s =
      .next { s with tx := s.tx ++ [0x00#8 :: (be32 (encodeFrame s.params cmd ack vin enc dlen data).length ++
        encodeFrame s.params cmd ack vin enc dlen data)] } := by
  rw [exec, execEncode_eq, encodeAnswer, h]
  rfl

/-- No mode refuses the six payload bytes of an acknowledgement (R95, R97). -/
theorem encodeRefused_acknowledgement (p : Params) : encodeRefused p 6#16 6 = false := by
  simp [encodeRefused, maxData]

theorem frameHeader_acknowledgement (p : Params) :
    frameHeader p 6#16 = [0x23#8, 0x23#8] ++ (if p.unitLenField then [0x00#8, 0x1C#8] else []) := rfl

/-- Settles O50: the ENCODE has the fields of the packet that MKRESP answers, and a frame is its header and the packet record. -/
theorem respondEncodesTheAcknowledgement : Obligations.RespondEncodesTheAcknowledgement := by
  intro s code cmd yy mo dd hh mi ss vin htime _ header
  have hframe : encodeFrame s.params cmd code (byteList vin) EncryptMode.none.byte 6#16 (bcd6 yy mo dd hh mi ss) =
      header ++ (makeResponse code cmd (byteList vin) yy mo dd hh mi ss).bytes :=
    (encodeFrame_eq_packet s.params (makeResponse code cmd (byteList vin) yy mo dd hh mi ss) rfl).trans
      (congrArg (· ++ _) (frameHeader_acknowledgement s.params))
  refine ⟨_, _, makeResponse code cmd (byteList vin) yy mo dd hh mi ss, rfl, exec_mkresp htime code cmd (byteList vin) s, ?_⟩
  rw [exec_encode (encodeRefused_acknowledgement s.params), hframe]
  rfl

end Machine

end Sys2Proof

namespace Sys2Proof

namespace Machine

/-! ## The fields of a frame (R60, R94) -/

theorem encodeFrame_length (p : Params) (cmd ack enc : Byte) (dlen : U16) {vin data : List Byte} (hv : vin.length = 17) :
    (encodeFrame p cmd ack vin enc dlen data).length = p.headerOffset + 23 + data.length := by
  rw [encodeFrame, List.length_append, encodeFrame_body_length p cmd ack enc dlen hv, List.length_singleton]
  omega

/-- A frame part by part: header, the fields before `dlen`, `dlen`, payload, checksum. -/
theorem encodeFrame_parts (p : Params) (cmd ack enc : Byte) (dlen : U16) (vin data : List Byte) :
    encodeFrame p cmd ack vin enc dlen data =
      frameHeader p dlen ++ ([cmd, ack] ++ vin ++ [enc]) ++
        (be16 dlen.toNat ++ (data ++ [xor8 (dataUnit cmd ack vin enc dlen data)])) := by
  simp [encodeFrame, dataUnit]

theorem encodeFrame_head_length (p : Params) (cmd ack enc : Byte) (dlen : U16) {vin : List Byte} (hv : vin.length = 17) :
    (frameHeader p dlen ++ ([cmd, ack] ++ vin ++ [enc])).length = p.headerOffset + 20 := by
  simp [frameHeader_length, hv]

theorem encodeFrame_slice_fields (p : Params) (cmd ack enc : Byte) (dlen : U16) {vin data : List Byte}
    (hv : vin.length = 17) :
    slice (encodeFrame p cmd ack vin enc dlen data) p.headerOffset (p.headerOffset + 20) = [cmd, ack] ++ vin ++ [enc] := by
  rw [encodeFrame_parts]
  exact slice_middle (frameHeader_length p dlen) (by simp [hv])

theorem encodeFrame_u16_dlen (p : Params) (cmd ack enc : Byte) (dlen : U16) {vin data : List Byte} (hv : vin.length = 17) :
    u16 (encodeFrame p cmd ack vin enc dlen data) (p.headerOffset + 20) = dlen.toNat := by
  rw [encodeFrame_parts]
  exact (u16_behind (encodeFrame_head_length p cmd ack enc dlen hv) _ 0).trans (u16_be16_of_lt dlen.isLt _)

theorem encodeFrame_slice_data (p : Params) (cmd ack enc : Byte) (dlen : U16) {vin data : List Byte}
    (hv : vin.length = 17) :
    slice (encodeFrame p cmd ack vin enc dlen data) (p.headerOffset + 22) (p.headerOffset + 22 + data.length) = data := by
  rw [encodeFrame_parts, ← List.append_assoc, ← List.append_assoc]
  refine slice_middle ?_ rfl
  rw [List.length_append, encodeFrame_head_length p cmd ack enc dlen hv, be16_length]

/-- The data-unit length behind the marker, in the layout that has it (R60, R96). -/
theorem encodeFrame_u16_unitLen {p : Params} (h : p.unitLenField = true) (cmd ack enc : Byte) (dlen : U16)
    (vin data : List Byte) :
    u16 (encodeFrame p cmd ack vin enc dlen data) 2 = (22 + dlen.toNat) % 65536 := by
  rw [encodeFrame_parts, frameHeader, if_pos h, List.append_assoc, List.append_assoc]
  exact (u16_behind (s := marker) rfl _ 0).trans (u16_be16_of_lt (Nat.mod_lt _ (by decide)) _)

/-- The checksum byte is the XOR of the data unit as it stands in the frame (R91, R92). -/
theorem encodeFrame_checksum_matches (p : Params) (cmd ack enc : Byte) (dlen : U16) {vin data : List Byte}
    (hv : vin.length = 17) :
    xor8 (slice (encodeFrame p cmd ack vin enc dlen data) p.headerOffset (p.headerOffset + 22 + data.length)) =
      byteAt (encodeFrame p cmd ack vin enc dlen data) (p.headerOffset + 22 + data.length) := by
  rw [encodeFrame_slice_dataUnit p cmd ack enc dlen hv, encodeFrame_byteAt_checksum p cmd ack enc dlen hv]

/-! ## ENCODE's refusal (R95) -/

theorem encodeRefused_iff (p : Params) (dlen : U16) (n : Nat) :
    encodeRefused p dlen n = true ↔ p.encStrict = true ∧ (dlen.toNat ≠ n ∨ 400 < n) := by
  rw [← show maxData = 400 from rfl]
  simp [encodeRefused]

theorem encodeRefused_eq_false_iff (p : Params) (dlen : U16) (n : Nat) :
    encodeRefused p dlen n = false ↔ ¬(p.encStrict = true ∧ (dlen.toNat ≠ n ∨ 400 < n)) := by
  rw [← encodeRefused_iff, Bool.not_eq_true]

/-- ENCODE of fields it refuses answers PRECOND alone (R95). -/
theorem exec_encode_refused {s : State} {dlen : U16} {data : List Byte}
    (h : encodeRefused s.params dlen data.length = true) (cmd ack enc : Byte) (vin : List Byte) :
    exec (.encode cmd ack vin enc dlen data) s = .next { s with tx := s.tx ++ [[0x02#8]] } := by
  rw [exec, execEncode_eq, encodeAnswer, h]
  rfl

/-- Two next states that differ at most in the response each appended are equal only when the responses are. -/
theorem response_eq_of_next_eq {s : State} {x y : List Byte}
    (h : (.next { s with tx := s.tx ++ [x] } : Host.Outcome State Fault Refusal) = .next { s with tx := s.tx ++ [y] }) :
    x = y := by
  simpa using h

/-! ## Decoding the frame of a valid packet (R99, R123 to R126) -/

/-- The frame that ENCODE emits for a packet's fields (R94). -/
def Packet.frame (p : Params) (q : Packet) : List Byte :=
  encodeFrame p q.commandFlag q.ackFlag q.vin q.encryptMode q.dataLength q.data

/-- A valid packet is determined by its data unit: the VIN's width fixes where each field stands, and the checksum and the length
field follow (R36). -/
theorem Packet.eq_of_dataUnit_eq {q r : Packet} (hq : q.valid = true) (hr : r.valid = true)
    (h : q.dataUnit = r.dataUnit) : q = r := by
  obtain ⟨hqvin, hqlen, -, hqsum⟩ := (packet_valid_iff q).mp hq
  obtain ⟨hrvin, hrlen, -, hrsum⟩ := (packet_valid_iff r).mp hr
  obtain ⟨hhead, hdata⟩ := List.append_inj h (by simp [hqvin, hrvin])
  obtain ⟨hfields, -⟩ := List.append_inj' hhead rfl
  obtain ⟨hflagsVin, henc⟩ := List.append_inj' hfields rfl
  obtain ⟨hflags, hvin⟩ := List.append_inj hflagsVin rfl
  have hlen : q.dataLength = r.dataLength := BitVec.eq_of_toNat_eq (by rw [hqlen, hrlen, hdata])
  have hsum : q.verify = r.verify := by rw [hqsum, hrsum, h]
  simp only [List.cons.injEq, and_true] at hflags henc
  cases q
  cases r
  exact (Packet.mk.injEq ..).mpr ⟨hflags.1, hflags.2, hvin, henc, hlen, hdata, hsum⟩

/-- The packet record that the decoder reads out of a valid packet's frame is that packet (R99). -/
theorem framePacket_frame (p : Params) {q : Packet} (hq : q.valid = true) :
    framePacket p (q.frame p) q.data.length = q := by
  obtain ⟨hvin, hlen, hmax, -⟩ := (packet_valid_iff q).mp hq
  have hdlen : u16 (q.frame p) (p.headerOffset + 20) = q.data.length :=
    (encodeFrame_u16_dlen p _ _ _ _ hvin).trans hlen
  have hwhole : (q.frame p).length = p.headerOffset + 23 + q.data.length := encodeFrame_length p _ _ _ _ hvin
  refine Packet.eq_of_dataUnit_eq ?_ hq ?_
  · exact framePacket_valid hmax hdlen hwhole (encodeFrame_checksum_matches p _ _ _ _ hvin)
  · exact (framePacket_dataUnit hmax hdlen hwhole).trans (encodeFrame_slice_dataUnit p _ _ _ _ hvin)

/-- A buffer with a marker in front and, behind it, a length field that the buffer covers: the turn takes the frame (R159). -/
theorem drainTurn_of_whole_frame {p : Params} {d : Decoder} {n : Nat} (hmark : firstMarker d.buf = some 0)
    (hn : u16 d.buf (p.headerOffset + 20) = n) (hmax : n ≤ maxData) (hwhole : p.headerOffset + 23 + n ≤ d.buf.length) :
    drainTurn p d = takeFrame p d n := by
  have hmin : ¬d.buf.length < p.minLen := by rw [minLen_eq]; omega
  simp [drainTurn, hmin, hmark, hn, Nat.not_lt.mpr hmax, Nat.not_lt.mpr hwhole]

/-- The turn on a buffer that begins with a valid packet's frame delivers the packet and goes on behind the frame (R126). -/
theorem drainTurn_frame {p : Params} {q : Packet} {d : Decoder} {rest : List Byte} (hq : q.valid = true)
    (hbuf : d.buf = q.frame p ++ rest) :
    drainTurn p d = .again { d with buf := rest, cntPkt := countUp d.cntPkt 1 } [.pkt q] := by
  obtain ⟨hvin, hlen, hmax, -⟩ := (packet_valid_iff q).mp hq
  have hwhole : (q.frame p).length = p.headerOffset + 23 + q.data.length := encodeFrame_length p _ _ _ _ hvin
  have hmark : firstMarker d.buf = some 0 := hbuf ▸ rfl
  have hdlen : u16 d.buf (p.headerOffset + 20) = q.data.length := by
    rw [hbuf, u16_append_left (by omega)]
    exact (encodeFrame_u16_dlen p _ _ _ _ hvin).trans hlen
  have htake : d.buf.take (p.headerOffset + 23 + q.data.length) = q.frame p := hbuf ▸ List.take_left' hwhole
  have hdrop : d.buf.drop (p.headerOffset + 23 + q.data.length) = rest := hbuf ▸ List.drop_left' hwhole
  rw [drainTurn_of_whole_frame hmark hdlen hmax (by rw [hbuf, List.length_append]; omega)]
  obtain ⟨e, -⟩ | ⟨-, hne⟩ := takeFrame_cases p d q.data.length
  · rw [e, htake, framePacket_frame p hq, Decoder.dropFront, hdrop]
  · rw [htake] at hne
    exact absurd (encodeFrame_checksum_matches p _ _ _ _ hvin) hne

/-- DRAIN of an empty buffer stops SHORT without a record (R114). -/
theorem drain_of_buf_nil {p : Params} {d : Decoder} (h : d.buf = []) : drain p d = ({ d with stop := .short }, []) :=
  drain_stopped (if_pos (by rw [h, minLen_eq, List.length_nil]; omega))

/-- DRAIN of exactly a valid packet's frame delivers the packet and stops SHORT at the empty buffer. -/
theorem drain_frame {p : Params} {q : Packet} {d : Decoder} (hq : q.valid = true) (hbuf : d.buf = q.frame p) :
    drain p d = ({ d with buf := [], stop := .short, cntPkt := countUp d.cntPkt 1 }, [.pkt q]) := by
  rw [drain_again (drainTurn_frame hq (hbuf.trans (List.append_nil _).symm)), drain_of_buf_nil rfl]
  rfl

/-- DECODE of a chunk that FEED accepts is DRAIN with the chunk appended (R130). -/
theorem exec_decode_of_fits {s : State} {b : List Byte} (hchunk : b.length ≤ s.params.maxChunk)
    (hfits : s.params.fits (s.dec.buf.length + b.length) = true) :
    exec (.decode b) s = exec .drain { s with dec := s.dec.append b } := by
  have hok : feedError s.params s.dec b.length = none := by simp [feedError, hfits, Nat.not_lt.mpr hchunk]
  simp only [exec, execDecode, execDrain, hok]

/-- A valid packet's fields are ones ENCODE takes in either mode (R36, R95). -/
theorem encodeRefused_of_valid (p : Params) {q : Packet} (hq : q.valid = true) :
    encodeRefused p q.dataLength q.data.length = false := by
  obtain ⟨-, hlen, hmax, -⟩ := (packet_valid_iff q).mp hq
  exact (encodeRefused_eq_false_iff p _ _).mpr fun ⟨_, h⟩ => h.elim (absurd hlen) (Nat.not_lt.mpr hmax)

/-- Settles O49: ENCODE takes a valid packet's fields, and the DRAIN of the one frame they make delivers the packet and then finds
the buffer empty. -/
theorem encodedPacketDecodesToItself : Obligations.EncodedPacketDecodesToItself := by
  intro s q hq hbuf frame hfits hchunk
  refine ⟨exec_encode (encodeRefused_of_valid s.params hq) _ _ _ _, ?_⟩
  have hdrain := drain_frame (p := s.params) (d := s.dec.append frame) hq (by rw [append_buf, hbuf]; rfl)
  rw [exec_decode_of_fits hchunk (by rwa [hbuf, List.length_nil, Nat.zero_add]), exec_drain, hdrain]
  simp only [List.flatMap_singleton, List.length_singleton]
  rfl

/-! ## XOR8 (R90) -/

/-- XOR8 does not depend on the order of its bytes. -/
theorem xor8_perm {s t : List Byte} (h : s.Perm t) : xor8 s = xor8 t := h.foldl_eq _

/-- Settles O39: each byte and each part folds in once, in any order. -/
theorem xorFoldLaws : Obligations.XorFoldLaws := by
  refine ⟨rfl, rfl, fun s b => ?_, xor8_append, fun _ _ => xor8_perm⟩
  rw [xor8_append, xor8_cons, xor8_nil, BitVec.xor_zero]

/-! ## BCD and MKRESP (R93, R97) -/

/-- BCD's value: the tens digit in the high nibble, the units digit in the low one (R93). -/
theorem bcd_toNat {v : Byte} (h : v.toNat ≤ 99) : (bcd v).toNat = v.toNat / 10 * 16 + v.toNat % 10 := by
  rw [bcd_of_le h, BitVec.toNat_ofNat]
  omega

theorem badTime_iff (yy mo dd hh mi ss : Byte) :
    badTime yy mo dd hh mi ss = true ↔ ∃ v ∈ [yy, mo, dd, hh, mi, ss], 99 < v.toNat := by
  simp only [badTime, List.any_eq_true, decide_eq_true_eq]

/-- MKRESP with a time field that BCD does not cover answers BADARG alone (R97). -/
theorem exec_mkresp_refused {yy mo dd hh mi ss : Byte} (h : ∃ v ∈ [yy, mo, dd, hh, mi, ss], 99 < v.toNat) (code cmd : Byte)
    (vin : List Byte) (s : State) :
    exec (.mkresp code cmd vin yy mo dd hh mi ss) s = .next { s with tx := s.tx ++ [[0x03#8]] } := by
  rw [exec, execMkresp_eq, mkrespAnswer, (badTime_iff yy mo dd hh mi ss).mpr h]
  rfl

/-- Settles O40: the nibbles are the quotient and the remainder of BCD's value by 16, and MKRESP refuses what BCD does not
cover. -/
theorem bcdWritesDecimalDigits : Obligations.BcdWritesDecimalDigits := by
  refine ⟨fun v hv => ?_, fun s vin code cmd yy mo dd hh mi ss => ⟨rfl, fun h => exec_mkresp_refused h code cmd vin s⟩⟩
  rw [bcd_toNat hv]
  omega

/-- Settles O45: the statement's packet is `makeResponse`, so its answer and its validity are those of MKRESP. -/
theorem mkrespBuildsTheAcknowledgement : Obligations.MkrespBuildsTheAcknowledgement := by
  intro s code cmd yy mo dd hh mi ss vin rest data du q
  have hq : q = makeResponse code cmd vin yy mo dd hh mi ss := rfl
  refine ⟨fun hvin => ?_, fun hbad => exec_mkresp_refused hbad code cmd vin s, fun htime => ?_, ?_, fun hvin => ?_⟩
  · exact decodeEncodeRoundTrip (.mkresp code cmd vin yy mo dd hh mi ss) rest (isVin_iff.mpr hvin)
  · rw [hq, exec_mkresp htime]
  · have hlen : q.dataLength = 6#16 := rfl
    rw [Packet.bytes, hlen]
    rfl
  · rw [hq, makeResponse_valid _ _ _ _ _ _ _ _ hvin]

/-! ## ENCODE (R94 to R96) -/

/-- Settles O41: the port reads back the fields, and `encodeRefused` selects between the two answers. -/
theorem encodeEmitsTheFrame : Obligations.EncodeEmitsTheFrame := by
  intro s cmd ack enc dlen vin data rest du unit frame
  refine ⟨fun hvin hdata => ?_, fun hbad => ?_, fun hok => ?_, fun hvin => encodeFrame_length s.params cmd ack enc dlen hvin⟩
  · exact decodeEncodeRoundTrip (.encode cmd ack vin enc dlen data) rest
      (Bool.and_eq_true_iff.mpr ⟨isVin_iff.mpr hvin, fitsU16_iff.mpr hdata⟩)
  · exact exec_encode_refused ((encodeRefused_iff s.params dlen _).mpr hbad) cmd ack enc vin
  · exact exec_encode ((encodeRefused_eq_false_iff s.params dlen _).mpr hok) cmd ack enc vin

/-- Settles O42: fields that ENCODE does not refuse are answered OK, whose status byte is not PRECOND's. -/
theorem strictEncodeRefuses : Obligations.StrictEncodeRefuses := by
  intro s cmd ack enc dlen vin data hstrict
  refine ⟨fun hbad => exec_encode_refused ((encodeRefused_iff s.params dlen _).mpr ⟨hstrict, hbad⟩) cmd ack enc vin, ?_⟩
  intro hexec
  by_contra hgood
  have hok := (encodeRefused_eq_false_iff s.params dlen data.length).mpr fun h => hgood h.2
  have hsame := response_eq_of_next_eq ((exec_encode hok cmd ack enc vin).symm.trans hexec)
  cases hsame

/-- Settles O43: without strict mode nothing is refused, and each field is read back where the frame's parts place it. -/
theorem looseEncodeEmitsFieldsAsGiven : Obligations.LooseEncodeEmitsFieldsAsGiven := by
  intro s cmd ack enc dlen vin data hloose hvin h
  have hok : encodeRefused s.params dlen data.length = false := by simp [encodeRefused, hloose]
  refine ⟨encodeFrame s.params cmd ack vin enc dlen data, exec_encode hok cmd ack enc vin,
    encodeFrame_length s.params cmd ack enc dlen hvin, encodeFrame_slice_fields s.params cmd ack enc dlen hvin,
    encodeFrame_u16_dlen s.params cmd ack enc dlen hvin, encodeFrame_slice_data s.params cmd ack enc dlen hvin,
    (encodeFrame_checksum_matches s.params cmd ack enc dlen hvin).symm,
    fun hlong => encodeFrame_u16_unitLen hlong cmd ack enc dlen vin data, ?_⟩
  have hdlen := dlen.isLt
  omega

/-! ## CSUM (R98) -/

theorem exec_csum (b : List Byte) (s : State) : exec (.csum b) s = .next { s with tx := s.tx ++ [[0x00#8, xor8 b]] } := rfl

/-- Settles O46: CSUM answers XOR8, which no order changes and which every byte twice makes 0. -/
theorem csumAnswersTheXor : Obligations.CsumAnswersTheXor := by
  refine ⟨fun s b rest => ⟨fun hb => ?_, exec_csum b s⟩, exec_csum [], fun s b c h => ?_, fun s b c h => ?_⟩
  · exact decodeEncodeRoundTrip (.csum b) rest (fitsU16_iff.mpr hb)
  · rw [exec_csum, exec_csum, xor8_perm h]
  · rw [exec_csum, xor8_perm h, xor8_append, BitVec.xor_self]

end Machine

end Sys2Proof

namespace Sys2Proof

/-- All but the last byte gone (R116, R117). -/
theorem drop_length_sub_one {s : List Byte} (h : 0 < s.length) : s.drop (s.length - 1) = [byteAt s (s.length - 1)] := by
  rw [List.drop_length_sub_one (List.ne_nil_of_length_pos h), List.getLast_eq_getElem]
  simp [byteAt, h]

theorem be32_zero : be32 0 = [0#8, 0#8, 0#8, 0#8] := be32_of_lt (by decide)

theorem be32_one : be32 1 = [0#8, 0#8, 0#8, 1#8] := be32_of_lt (by decide)

namespace Machine

/-! ## The answers of FEED and DECODE (R110 to R112, R130) -/

theorem feedError_badarg {p : Params} {k : Nat} (h : p.maxChunk < k) (d : Decoder) : feedError p d k = some .badarg :=
  if_pos h

theorem feedError_full {p : Params} {d : Decoder} {k : Nat} (hk : k ≤ p.maxChunk)
    (h : p.fits (d.buf.length + k) = false) : feedError p d k = some .full := by
  simp [feedError, h, Nat.not_lt.mpr hk]

theorem feedError_none {p : Params} {d : Decoder} {k : Nat} (hk : k ≤ p.maxChunk)
    (h : p.fits (d.buf.length + k) = true) : feedError p d k = none := by
  simp [feedError, h, Nat.not_lt.mpr hk]

/-- A FEED whose check fails answers the check's status alone (R110, R160). -/
theorem exec_feed_of_error {s : State} {b : List Byte} {e : CmdError} (h : feedError s.params s.dec b.length = some e) :
    exec (.feed b) s = .next { s with tx := s.tx ++ [[e.code]] } := by
  simp only [exec, execFeed, h, fail_eq_next]

/-- A FEED that passes the checks appends its chunk and answers OK (R110). -/
theorem exec_feed_of_ok {s : State} {b : List Byte} (h : feedError s.params s.dec b.length = none) :
    exec (.feed b) s = .next { s with dec := s.dec.append b, tx := s.tx ++ [[0x00#8]] } := by
  simp only [exec, execFeed, h]
  rfl

/-- A DECODE whose FEED fails answers the FEED's status alone (R130). -/
theorem exec_decode_of_error {s : State} {b : List Byte} {e : CmdError} (h : feedError s.params s.dec b.length = some e) :
    exec (.decode b) s = .next { s with tx := s.tx ++ [[e.code]] } := by
  simp only [exec, execDecode, h, fail_eq_next]

/-- The status that a FEED answered says which of its checks failed (R110, R158). -/
theorem exec_feed_status {s t : State} {b : List Byte} (h : exec (.feed b) s = .next t) :
    (s.params.maxChunk < b.length ∧ t.tx = s.tx ++ [[0x03#8]]) ∨
    (s.params.fits (s.dec.buf.length + b.length) = false ∧ t.tx = s.tx ++ [[0x01#8]]) ∨
    t.tx = s.tx ++ [[0x00#8]] := by
  rcases feedError_cases s.params s.dec b.length with ⟨hlong, he⟩ | ⟨-, hfull, he⟩ | ⟨-, -, he⟩
  · obtain rfl := Host.Outcome.next.inj ((exec_feed_of_error he).symm.trans h)
    exact .inl ⟨hlong, rfl⟩
  · obtain rfl := Host.Outcome.next.inj ((exec_feed_of_error he).symm.trans h)
    exact .inr (.inl ⟨hfull, rfl⟩)
  · obtain rfl := Host.Outcome.next.inj ((exec_feed_of_ok he).symm.trans h)
    exact .inr (.inr rfl)

/-- A FEED that answers BADARG was above P_MAX_CHUNK (R111). -/
theorem maxChunk_lt_of_feed_badarg {s t : State} {b : List Byte} (h : exec (.feed b) s = .next t)
    (hbad : t.tx = s.tx ++ [[0x03#8]]) : s.params.maxChunk < b.length := by
  rcases exec_feed_status h with ⟨hlong, -⟩ | ⟨-, htx⟩ | htx
  · exact hlong
  · simp [htx] at hbad
  · simp [htx] at hbad

/-- A FEED that answers FULL did not fit (R112). -/
theorem not_fits_of_feed_full {s t : State} {b : List Byte} (h : exec (.feed b) s = .next t)
    (hfull : t.tx = s.tx ++ [[0x01#8]]) : s.params.fits (s.dec.buf.length + b.length) = false := by
  rcases exec_feed_status h with ⟨-, htx⟩ | ⟨hfits, -⟩ | htx
  · simp [htx] at hfull
  · exact hfits
  · simp [htx] at hfull

/-- Settles O17: the port reads the chunk back, and the outcome is that of the check that fires first. -/
theorem feedAppendsOrRefuses : Obligations.FeedAppendsOrRefuses := by
  intro s b rest
  refine ⟨fun hb => ?_, fun hlong => ?_, fun hk hfull => ?_, fun hk hfits => ?_⟩
  · exact decodeEncodeRoundTrip (.feed b) rest (fitsU16_iff.mpr hb)
  · exact exec_feed_of_error (feedError_badarg hlong s.dec)
  · exact exec_feed_of_error (feedError_full hk hfull)
  · exact exec_feed_of_ok (feedError_none hk hfits)

/-- Settles O18: the port reads no chunk of more than 65535 bytes. -/
theorem feedRefusesLongChunks : Obligations.FeedRefusesLongChunks := by
  refine ⟨fun s b hlong => exec_feed_of_error (feedError_badarg hlong s.dec), ?_⟩
  intro s t bs b rest hmax hread hfeed hbad
  obtain ⟨hwf, -⟩ := decodedBytesAreTheCommand bs rest (.feed b) hread
  have hshort : b.length < 65536 := fitsU16_iff.mp hwf
  have hlong := maxChunk_lt_of_feed_badarg hfeed hbad
  omega

/-- Settles O9: a step executes a command, and every command answers, or waits; FEED's statuses are those of its checks. -/
theorem decoderIsTotal : Obligations.DecoderIsTotal := by
  refine ⟨fun s => ?_, fun s b => ?_, fun s => ⟨_, _, exec_drain s, rfl⟩⟩
  · unfold step
    split
    next i rest _ =>
      obtain ⟨t, _, _, hexec, -⟩ := everyCommandAnswersOnce i { s with port := rest }
      exact ⟨t, hexec⟩
    · exact ⟨_, rfl⟩
  · obtain ⟨t, _, _, hexec, -⟩ := everyCommandAnswersOnce (.feed b) s
    rcases exec_feed_status hexec with ⟨-, htx⟩ | ⟨-, htx⟩ | htx
    · exact ⟨t, _, hexec, htx, .inr (.inr rfl)⟩
    · exact ⟨t, _, hexec, htx, .inr (.inl rfl)⟩
    · exact ⟨t, _, hexec, htx, .inl rfl⟩

/-- Settles O38: the checks are FEED's, and what follows them is DRAIN. -/
theorem decodeIsFeedThenDrain : Obligations.DecodeIsFeedThenDrain := by
  intro s b rest r
  refine ⟨fun hb => ?_, fun hlong => ?_, fun hk hfull => ?_, fun hk hfits => ?_, fun hfits => ?_⟩
  · exact decodeEncodeRoundTrip (.decode b) rest (fitsU16_iff.mpr hb)
  · exact exec_decode_of_error (feedError_badarg hlong s.dec)
  · exact exec_decode_of_error (feedError_full hk hfull)
  · have hdrain := exec_decode_of_fits hk hfits
    exact ⟨hdrain, hdrain.trans (exec_drain _)⟩
  · rw [exec_decode_of_fits (Nat.zero_le _) hfits, Decoder.append, List.append_nil]

/-! ## The first marker (R115) -/

/-- Two marker bytes stand side by side at offset `i` inside `s` (R13, R115). -/
def MarkerAt (s : List Byte) (i : Nat) : Prop :=
  i + 2 ≤ s.length ∧ byteAt s i = markerByte ∧ byteAt s (i + 1) = markerByte

theorem markerAt_zero {a b : Byte} {s : List Byte} : MarkerAt (a :: b :: s) 0 ↔ a = markerByte ∧ b = markerByte := by
  simp [MarkerAt]

theorem markerAt_succ {a : Byte} {s : List Byte} {i : Nat} : MarkerAt (a :: s) (i + 1) ↔ MarkerAt s i := by
  simp [MarkerAt]

theorem markerAt_of_firstMarker {s : List Byte} {i : Nat} (h : firstMarker s = some i) : MarkerAt s i := by
  induction s using firstMarker.induct generalizing i with
  | case1 a b rest hm =>
    obtain rfl : 0 = i := by simpa [firstMarker, hm] using h
    exact markerAt_zero.mpr hm
  | case2 a b rest hm ih =>
    simp only [firstMarker, hm, if_false, Option.map_eq_some_iff] at h
    obtain ⟨j, hj, rfl⟩ := h
    exact markerAt_succ.mpr (ih hj)
  | case3 s hs =>
    rw [firstMarker] at h
    · cases h
    · exact hs

theorem firstMarker_le_of_markerAt {s : List Byte} {j : Nat} (h : MarkerAt s j) : ∃ i ≤ j, firstMarker s = some i := by
  induction s using firstMarker.induct generalizing j with
  | case1 a b rest hm => exact ⟨0, Nat.zero_le j, by simp [firstMarker, hm]⟩
  | case2 a b rest hm ih =>
    cases j with
    | zero => exact absurd (markerAt_zero.mp h) hm
    | succ j =>
      obtain ⟨i, hi, hfirst⟩ := ih (markerAt_succ.mp h)
      exact ⟨i + 1, Nat.succ_le_succ hi, by simp [firstMarker, hm, hfirst]⟩
  | case3 s hs =>
    match s, h with
    | a :: b :: rest, _ => exact absurd rfl (hs a b rest)
    | [_], ⟨hlen, _⟩ => simp at hlen
    | [], ⟨hlen, _⟩ => simp at hlen

theorem firstMarker_eq_some_iff {s : List Byte} {i : Nat} :
    firstMarker s = some i ↔ MarkerAt s i ∧ ∀ j < i, ¬MarkerAt s j := by
  constructor
  · intro h
    refine ⟨markerAt_of_firstMarker h, fun j hj hmark => ?_⟩
    obtain ⟨k, hk, hfirst⟩ := firstMarker_le_of_markerAt hmark
    obtain rfl := Option.some.inj (h.symm.trans hfirst)
    omega
  · rintro ⟨hmark, hleast⟩
    obtain ⟨k, hk, hfirst⟩ := firstMarker_le_of_markerAt hmark
    obtain rfl | hlt := Nat.eq_or_lt_of_le hk
    · exact hfirst
    · exact absurd (markerAt_of_firstMarker hfirst) (hleast k hlt)

theorem firstMarker_eq_none_iff {s : List Byte} : firstMarker s = none ↔ ∀ j, ¬MarkerAt s j := by
  rw [Option.eq_none_iff_forall_ne_some]
  constructor
  · intro h j hmark
    obtain ⟨k, -, hfirst⟩ := firstMarker_le_of_markerAt hmark
    exact h k hfirst
  · exact fun h i hfirst => h i (markerAt_of_firstMarker hfirst)

/-- What follows a marker's offset begins with the marker. -/
theorem MarkerAt.drop {s : List Byte} {i : Nat} (h : MarkerAt s i) :
    s.drop i = markerByte :: markerByte :: s.drop (i + 2) := by
  obtain ⟨hlen, hfst, hsnd⟩ := h
  have hpair : slice s i (i + 2) = [markerByte, markerByte] := by rw [slice_pair (by omega), hfst, hsnd]
  have hsplit := List.take_append_drop 2 (s.drop i)
  rw [List.drop_drop] at hsplit
  rw [slice, Nat.add_sub_cancel_left] at hpair
  rw [← hsplit, hpair]
  rfl

/-! ## The arms of a DRAIN turn (R114 to R122) -/

theorem drainTurn_short {p : Params} {d : Decoder} (h : d.buf.length < p.minLen) : drainTurn p d = stopShort d :=
  if_pos h

theorem drainTurn_flush {p : Params} {d : Decoder} (hmin : p.minLen ≤ d.buf.length) (hmark : firstMarker d.buf = none) :
    drainTurn p d = flush p d := by
  simp [drainTurn, Nat.not_lt.mpr hmin, hmark]

theorem drainTurn_skipPrefix {p : Params} {d : Decoder} {off : Nat} (hmin : p.minLen ≤ d.buf.length)
    (hmark : firstMarker d.buf = some off) (hoff : 0 < off) : drainTurn p d = skipPrefix d off := by
  simp [drainTurn, Nat.not_lt.mpr hmin, hmark, hoff]

theorem drainTurn_skipOversize {p : Params} {d : Decoder} (hmin : p.minLen ≤ d.buf.length)
    (hmark : firstMarker d.buf = some 0) (hover : maxData < u16 d.buf (p.headerOffset + 20)) :
    drainTurn p d = skipOversize p d (u16 d.buf (p.headerOffset + 20)) := by
  simp [drainTurn, Nat.not_lt.mpr hmin, hmark, hover]

theorem drainTurn_partial {p : Params} {d : Decoder} (hmin : p.minLen ≤ d.buf.length)
    (hmark : firstMarker d.buf = some 0) (hmax : u16 d.buf (p.headerOffset + 20) ≤ maxData)
    (hlen : d.buf.length < p.headerOffset + 23 + u16 d.buf (p.headerOffset + 20)) : drainTurn p d = stopPartial d := by
  simp [drainTurn, Nat.not_lt.mpr hmin, hmark, Nat.not_lt.mpr hmax, hlen]

theorem drain_short {p : Params} {d : Decoder} (h : d.buf.length < p.minLen) : drain p d = ({ d with stop := .short }, []) :=
  drain_stopped (drainTurn_short h)

theorem drain_partial {p : Params} {d : Decoder} (hmin : p.minLen ≤ d.buf.length)
    (hmark : firstMarker d.buf = some 0) (hmax : u16 d.buf (p.headerOffset + 20) ≤ maxData)
    (hlen : d.buf.length < p.headerOffset + 23 + u16 d.buf (p.headerOffset + 20)) :
    drain p d = ({ d with stop := .partialFrame }, []) :=
  drain_stopped (drainTurn_partial hmin hmark hmax hlen)

/-- A DRAIN without a record answers its stop reason and a count of 0 (R73). -/
theorem exec_drain_of_no_record {s : State} {d : Decoder} (h : drain s.params s.dec = (d, [])) :
    exec .drain s = .next { s with dec := d, tx := s.tx ++ [[0x00#8, d.stop.code.setWidth 8, 0#8, 0#8, 0#8, 0#8]] } := by
  rw [exec_drain, h, List.length_nil, be32_zero]
  rfl

/-- Settles O20: `MarkerAt` spells out the statement's clauses, and an offset below one inside `s` is inside `s`. -/
theorem firstMarkerIsLeast : Obligations.FirstMarkerIsLeast := by
  refine ⟨fun p d h => drainTurn_short h, fun s => ⟨fun i => ?_, ?_⟩⟩
  · rw [firstMarker_eq_some_iff, MarkerAt, and_assoc, and_assoc]
    refine and_congr_right fun hlen => and_congr_right fun _ => and_congr_right fun _ => ?_
    refine forall₂_congr fun j hj => not_congr (and_iff_right ?_)
    omega
  · simp only [firstMarker_eq_none_iff, MarkerAt, not_and]
    rfl

/-- Settles O21: the first arm of the turn. -/
theorem drainStopsShort : Obligations.DrainStopsShort :=
  ⟨fun _ _ h => drain_short h, fun _ h => exec_drain_of_no_record (drain_short h)⟩

/-- MIN_LEN is 25 or more in both layouts (R6). -/
theorem minLen_ge (p : Params) : 25 ≤ p.minLen := by
  rw [minLen_of_layout]
  split <;> decide

theorem keep_of_retainTail {p : Params} (h : p.retainTail = true) : p.keep = 1 := if_pos h

theorem keep_of_not_retainTail {p : Params} (h : p.retainTail = false) : p.keep = 0 := if_neg (by simp [h])

/-- Settles O22: the flush arm ends the DRAIN with one record, and the kept byte is the buffer's last. -/
theorem drainFlushes : Obligations.DrainFlushes := by
  intro s hmin hmark keep flushed
  have hdrain : drain s.params s.dec =
      ({ s.dec with buf := s.dec.buf.drop flushed, stop := .flushed, cntFlush := s.dec.cntFlush + 1 },
        [.framing flushed keep]) := drain_stopped (drainTurn_flush hmin hmark)
  have hkeep : keep ≤ 1 := keep_le_one s.params
  have hlong := minLen_ge s.params
  have hflushed : flushed = s.dec.buf.length - keep := rfl
  refine ⟨fun htail => ?_, fun htail => ?_, by omega, by omega, hdrain, ?_⟩
  · rw [hflushed, show keep = 1 from keep_of_retainTail htail]
    exact drop_length_sub_one (by omega)
  · rw [hflushed, show keep = 0 from keep_of_not_retainTail htail]
    exact List.drop_length
  · rw [exec_drain, hdrain, List.flatMap_singleton, List.length_singleton, be32_one]
    rfl

/-- Settles O23: `skipPrefix` goes on at the marker. -/
theorem drainDiscardsPrefix : Obligations.DrainDiscardsPrefix := by
  intro p d off hmin hmark hoff
  exact ⟨⟨_, (markerAt_of_firstMarker hmark).drop⟩, drain_again (drainTurn_skipPrefix hmin hmark hoff)⟩

/-- Settles O24: `skipOversize` goes on behind the bytes present of the frame. -/
theorem drainSkipsOversize : Obligations.DrainSkipsOversize := by
  intro p d hmin hmark n gone d' hover
  refine ⟨?_, drain_again (drainTurn_skipOversize hmin hmark hover)⟩
  rw [minLen_eq] at *
  omega

/-- Settles O25: the partial arm ends the DRAIN without a record. -/
theorem drainStopsPartial : Obligations.DrainStopsPartial := by
  intro s hmin hmark hmax hlen
  have hdrain := drain_partial hmin hmark hmax hlen
  exact ⟨hdrain, exec_drain_of_no_record hdrain⟩

/-! ## Whole frames of any header (R123 to R126) -/

/-- A frame with any header bytes, and a record's fields and its checksum byte, whatever their values, behind them (R60). -/
def rawFrame (header : List Byte) (q : Packet) : List Byte := header ++ q.dataUnit ++ [q.verify]

section RawFrame

variable {p : Params} {d : Decoder} {header rest : List Byte} {q : Packet}

theorem packet_dataUnit_length (hvin : q.vin.length = 17) : q.dataUnit.length = 22 + q.data.length :=
  dataUnit_length _ _ _ _ hvin

theorem rawFrame_length (hheader : header.length = p.headerOffset) (hvin : q.vin.length = 17) :
    (rawFrame header q).length = p.headerOffset + 23 + q.data.length := by
  simp [rawFrame, hheader, packet_dataUnit_length hvin]
  omega

theorem rawFrame_slice_dataUnit (hheader : header.length = p.headerOffset) (hvin : q.vin.length = 17) :
    slice (rawFrame header q) p.headerOffset (p.headerOffset + 22 + q.data.length) = q.dataUnit :=
  slice_middle hheader (by rw [packet_dataUnit_length hvin]; omega)

theorem rawFrame_byteAt_checksum (hheader : header.length = p.headerOffset) (hvin : q.vin.length = 17) :
    byteAt (rawFrame header q) (p.headerOffset + 22 + q.data.length) = q.verify := by
  have hbody : (header ++ q.dataUnit).length = p.headerOffset + 22 + q.data.length := by
    rw [List.length_append, hheader, packet_dataUnit_length hvin]
    omega
  exact byteAt_behind hbody [q.verify] 0

theorem rawFrame_u16_dlen (hheader : header.length = p.headerOffset) (hvin : q.vin.length = 17) :
    u16 (rawFrame header q) (p.headerOffset + 20) = q.dataLength.toNat := by
  have hparts : rawFrame header q = header ++ ([q.commandFlag, q.ackFlag] ++ q.vin ++ [q.encryptMode]) ++
      (be16 q.dataLength.toNat ++ (q.data ++ [q.verify])) := by
    simp [rawFrame, Packet.dataUnit, dataUnit]
  rw [hparts]
  exact (u16_behind (by simp [hheader, hvin]) _ 0).trans (u16_be16_of_lt q.dataLength.isLt _)

/-- The packet record read out of the frame of a valid packet is that packet, whatever the header says (R67, R126). -/
theorem framePacket_rawFrame (hheader : header.length = p.headerOffset) (hq : q.valid = true) :
    framePacket p (rawFrame header q) q.data.length = q := by
  obtain ⟨hvin, hlen, hmax, hsum⟩ := (packet_valid_iff q).mp hq
  have hdlen := (rawFrame_u16_dlen hheader hvin).trans hlen
  have hwhole := rawFrame_length hheader hvin
  have hunit := rawFrame_slice_dataUnit hheader hvin
  have hcheck := rawFrame_byteAt_checksum hheader hvin
  refine Packet.eq_of_dataUnit_eq (framePacket_valid hmax hdlen hwhole ?_) hq ?_
  · rw [hunit, hcheck, hsum]
  · exact (framePacket_dataUnit hmax hdlen hwhole).trans hunit

end RawFrame

/-- The buffer begins with a whole frame of the layout: the marker, a data-unit-length field `u` of any value, and the fields of
`q`, whose checksum byte need not match (R60, R67, R123). -/
structure BeginsWithFrame (p : Params) (d : Decoder) (u : List Byte) (q : Packet) (rest : List Byte) : Prop where
  unit : u.length = p.headerOffset - 2
  vin : q.vin.length = 17
  dlen : q.dataLength.toNat = q.data.length
  short : q.data.length ≤ maxData
  buf : d.buf = rawFrame (marker ++ u) q ++ rest

section BeginsWithFrame

variable {p : Params} {d : Decoder} {u rest : List Byte} {q : Packet}

theorem BeginsWithFrame.header (h : BeginsWithFrame p d u q rest) : (marker ++ u).length = p.headerOffset := by
  have hoffset := headerOffset_cases p
  rw [List.length_append, h.unit, marker, List.length_cons, List.length_singleton]
  omega

theorem BeginsWithFrame.take (h : BeginsWithFrame p d u q rest) :
    d.buf.take (p.headerOffset + 23 + q.data.length) = rawFrame (marker ++ u) q := by
  rw [h.buf, List.take_left' (rawFrame_length h.header h.vin)]

theorem BeginsWithFrame.drop (h : BeginsWithFrame p d u q rest) :
    d.buf.drop (p.headerOffset + 23 + q.data.length) = rest := by
  rw [h.buf, List.drop_left' (rawFrame_length h.header h.vin)]

/-- The turn takes the frame: its length field is read where `q` has it, and the buffer covers it (R159). -/
theorem BeginsWithFrame.drainTurn_eq (h : BeginsWithFrame p d u q rest) : drainTurn p d = takeFrame p d q.data.length := by
  have hwhole := rawFrame_length h.header h.vin
  refine drainTurn_of_whole_frame (h.buf ▸ rfl) ?_ h.short ?_
  · rw [h.buf, u16_append_left (by omega), rawFrame_u16_dlen h.header h.vin, h.dlen]
  · rw [h.buf, List.length_append]
    omega

/-- A frame whose checksum byte is wrong is removed and reported (R125). -/
theorem BeginsWithFrame.drainTurn_badChecksum (h : BeginsWithFrame p d u q rest) (hsum : xor8 q.dataUnit ≠ q.verify) :
    drainTurn p d = .again { d with buf := rest, cntCsum := countUp d.cntCsum 1 }
      [.csumErr (xor8 q.dataUnit) q.verify (BitVec.ofNat 16 q.data.length)] := by
  have htake := takeFrame_cases p d q.data.length
  rw [h.take, rawFrame_slice_dataUnit h.header h.vin, rawFrame_byteAt_checksum h.header h.vin, Decoder.dropFront,
    h.drop] at htake
  obtain ⟨-, heq⟩ | ⟨e, -⟩ := htake
  · exact absurd heq hsum
  · exact h.drainTurn_eq.trans e

/-- A frame whose checksum byte is right is delivered (R126). -/
theorem BeginsWithFrame.drainTurn_deliver (h : BeginsWithFrame p d u q rest) (hq : q.valid = true) :
    drainTurn p d = .again { d with buf := rest, cntPkt := countUp d.cntPkt 1 } [.pkt q] := by
  have htake := takeFrame_cases p d q.data.length
  rw [h.take, rawFrame_slice_dataUnit h.header h.vin, rawFrame_byteAt_checksum h.header h.vin, Decoder.dropFront,
    h.drop, framePacket_rawFrame h.header hq] at htake
  obtain ⟨e, -⟩ | ⟨-, hne⟩ := htake
  · exact h.drainTurn_eq.trans e
  · obtain ⟨-, -, -, hsum⟩ := (packet_valid_iff q).mp hq
    exact absurd hsum.symm hne

end BeginsWithFrame

/-- The packet record of the given fields, its length field the payload's length (R35). -/
def packetOfFields (cmd ack enc r : Byte) (vin data : List Byte) : Packet :=
  { commandFlag := cmd, ackFlag := ack, vin := vin, encryptMode := enc, dataLength := BitVec.ofNat 16 data.length,
    data := data, verify := r }

section PacketOfFields

variable {data : List Byte} (hmax : data.length ≤ 400)

include hmax

theorem packetOfFields_dlen (cmd ack enc r : Byte) (vin : List Byte) :
    (packetOfFields cmd ack enc r vin data).dataLength.toNat = data.length :=
  Nat.mod_eq_of_lt (by omega)

theorem packetOfFields_dataUnit (cmd ack enc r : Byte) (vin : List Byte) :
    (packetOfFields cmd ack enc r vin data).dataUnit = [cmd, ack] ++ vin ++ [enc] ++ be16 data.length ++ data := by
  rw [Packet.dataUnit, dataUnit, packetOfFields_dlen hmax]
  rfl

/-- A buffer written out as marker, unit length, data unit, checksum byte and rest begins with that frame. -/
theorem beginsWithFrame_of_buf {p : Params} {d : Decoder} {u vin rest : List Byte} {cmd ack enc r : Byte}
    (hunit : u.length = p.headerOffset - 2) (hvin : vin.length = 17)
    (hbuf : d.buf = [0x23#8, 0x23#8] ++ u ++ ([cmd, ack] ++ vin ++ [enc] ++ be16 data.length ++ data) ++ [r] ++ rest) :
    BeginsWithFrame p d u (packetOfFields cmd ack enc r vin data) rest where
  unit := hunit
  vin := hvin
  dlen := packetOfFields_dlen hmax cmd ack enc r vin
  short := hmax
  buf := by
    rw [hbuf, rawFrame, packetOfFields_dataUnit hmax]
    rfl

end PacketOfFields

/-- Settles O26: the buffer begins with a whole frame, so the turn takes it, and its checksum does not match. -/
theorem drainDropsBadChecksum : Obligations.DrainDropsBadChecksum := by
  intro p d u vin data rest cmd ack enc r hunit hvin hmax hbuf c d' hne
  have hunitBytes := packetOfFields_dataUnit hmax cmd ack enc r vin
  have hturn := (beginsWithFrame_of_buf hmax hunit hvin hbuf).drainTurn_badChecksum (by rwa [hunitBytes])
  rw [hunitBytes] at hturn
  exact drain_again hturn

/-- Settles O27: the record of the fields is valid, so the frame that the buffer begins with delivers it. -/
theorem drainDeliversPacket : Obligations.DrainDeliversPacket := by
  intro p d u vin data rest cmd ack enc r hunit hvin hmax hbuf d' q hsum
  have hq : q.valid = true := by
    refine (packet_valid_iff q).mpr ⟨hvin, packetOfFields_dlen hmax cmd ack enc r vin, hmax, ?_⟩
    exact hsum.symm.trans (congrArg xor8 (packetOfFields_dataUnit hmax cmd ack enc r vin).symm)
  exact ⟨hq, drain_again ((beginsWithFrame_of_buf hmax hunit hvin hbuf).drainTurn_deliver hq)⟩

/-! ## The end of a DRAIN (R127 to R129) -/

/-- How a DRAIN ends: the stop reason, and what the buffer then holds (R114, R116, R122). -/
inductive DrainEnd (p : Params) (e : Decoder) : Prop where
  | short (stop : e.stop = .short) (len : e.buf.length < p.minLen)
  | partialFrame (stop : e.stop = .partialFrame) (min : p.minLen ≤ e.buf.length) (marker : firstMarker e.buf = some 0)
      (max : u16 e.buf (p.headerOffset + 20) ≤ maxData)
      (len : e.buf.length < p.headerOffset + 23 + u16 e.buf (p.headerOffset + 20))
  | flushed (stop : e.stop = .flushed) (len : e.buf.length = p.keep)

theorem takeFrame_ne_stopped (p : Params) (d e : Decoder) (n : Nat) (rs : List Record) :
    takeFrame p d n ≠ .stopped e rs := by
  rcases takeFrame_cases p d n with ⟨h, -⟩ | ⟨h, -⟩ <;> simp [h]

/-- A flush leaves the bytes it keeps (R116). -/
theorem flush_length {p : Params} {d : Decoder} (hmin : p.minLen ≤ d.buf.length) :
    (flush p d).decoder.buf.length = p.keep := by
  have hkeep := keep_le_one p
  have hlong := minLen_ge p
  rw [flush_decoder, dropFront_buf, List.length_drop]
  omega

theorem drainEnd_of_stopped {p : Params} {d e : Decoder} {rs : List Record} (h : drainTurn p d = .stopped e rs) :
    DrainEnd p e := by
  rcases drainTurn_cases p d with ⟨hlen, t⟩ | ⟨hmin, -, t⟩ | ⟨-, off, -, -, t⟩ | ⟨-, -, -, t⟩ | ⟨hmin, hmark, hmax, hlen, t⟩ |
    ⟨-, -, -, -, t⟩ <;> rw [h] at t
  · cases t; exact .short rfl hlen
  · cases t; exact .flushed rfl (flush_length hmin)
  · cases t
  · cases t
  · cases t; exact .partialFrame rfl hmin hmark hmax hlen
  · exact absurd t.symm (takeFrame_ne_stopped p d e _ rs)

/-- Whatever turns came before, a DRAIN ends with a turn that stops it. -/
theorem drain_end (p : Params) (d : Decoder) : DrainEnd p (drain p d).1 :=
  drain_induction p (P := fun _ r => DrainEnd p r.1) (fun _ _ _ h => drainEnd_of_stopped h) (fun _ _ _ _ ih => ih) d

/-- A flush keeps fewer bytes than a search needs. -/
theorem keep_lt_minLen (p : Params) : p.keep < p.minLen :=
  (keep_le_one p).trans_lt (lt_of_lt_of_le (by decide) (minLen_ge p))

theorem DrainEnd.length_lt_maxFrame {p : Params} {e : Decoder} (h : DrainEnd p e) : e.buf.length < p.maxFrame := by
  have hkeep := keep_lt_minLen p
  rw [maxFrame_eq]
  cases h with
  | short _ len => omega
  | partialFrame _ _ _ max len =>
    rw [minLen_eq]
    unfold maxData at max
    omega
  | flushed _ len => omega

/-- Settles O29: the three ways a DRAIN can end, and the bound that they share. -/
theorem bufferAfterDrain : Obligations.BufferAfterDrain := by
  intro p d e n
  have hend : DrainEnd p e := drain_end p d
  have hbound : e.buf.length ≤ p.maxFrame - 1 := Nat.le_sub_one_of_lt hend.length_lt_maxFrame
  cases hend with
  | short stop len => exact ⟨fun _ => len, by simp [stop], by simp [stop], hbound⟩
  | partialFrame stop min marker max len =>
    obtain ⟨-, hfst, hsnd⟩ := markerAt_of_firstMarker marker
    exact ⟨by simp [stop], fun _ => ⟨hfst, hsnd, max, min, len, Nat.add_le_add_left max _⟩, by simp [stop], hbound⟩
  | flushed stop len => exact ⟨by simp [stop], by simp [stop], fun _ => len, hbound⟩

/-- A DRAIN of what a DRAIN left writes STOP alone (R129). -/
theorem DrainEnd.drain_eq {p : Params} {e : Decoder} (h : DrainEnd p e) :
    drain p e = ({ e with stop := if e.stop = .partialFrame then .partialFrame else .short }, []) := by
  cases h with
  | short stop len => simp [drain_short len, stop]
  | partialFrame stop min marker max len => simp [drain_partial min marker max len, stop]
  | flushed stop len => simp [drain_short (len ▸ keep_lt_minLen p), stop]

/-- What a DRAIN leaves is the drained decoder, in a block of the same parameters. -/
theorem drainEnd_of_exec_drain {s t : State} (h : exec .drain s = .next t) : DrainEnd t.params t.dec := by
  obtain rfl := Host.Outcome.next.inj ((exec_drain s).symm.trans h)
  exact drain_end s.params s.dec

/-- Settles O30: the first DRAIN has left what a DRAIN only writes STOP for. -/
theorem secondDrainDoesNothing : Obligations.SecondDrainDoesNothing := by
  intro s t h
  exact ⟨_, rfl, exec_drain_of_no_record (drainEnd_of_exec_drain h).drain_eq⟩

/-- A turn emits at most one record. -/
theorem drainTurn_records_length_le_one (p : Params) (d : Decoder) : (drainTurn p d).records.length ≤ 1 := by
  rcases drainTurn_cases p d with ⟨-, e⟩ | ⟨-, -, e⟩ | ⟨-, off, -, -, e⟩ | ⟨-, -, -, e⟩ | ⟨-, -, -, -, e⟩ |
    ⟨-, -, -, -, e⟩ <;> rw [e]
  case inr.inr.inr.inr.inr => rcases takeFrame_cases p d (u16 d.buf (p.headerOffset + 20)) with ⟨t, -⟩ | ⟨t, -⟩ <;> simp [t]
  all_goals simp

/-- A turn that goes on and emits a record removes at least MIN_LEN bytes: a whole frame, or of an oversized one what is there
(R121, R123). -/
theorem drainTurn_again_removes_minLen {p : Params} {d d' : Decoder} {rs : List Record} (h : drainTurn p d = .again d' rs)
    (hrs : rs ≠ []) : d'.buf.length + p.minLen ≤ d.buf.length := by
  have hmin := minLen_eq p
  rcases drainTurn_cases p d with ⟨-, e⟩ | ⟨-, -, e⟩ | ⟨-, off, -, -, e⟩ | ⟨hlen, -, -, e⟩ | ⟨-, -, -, -, e⟩ |
    ⟨-, -, -, hwhole, e⟩ <;> rw [h] at e
  · cases e
  · cases e
  · cases e
    exact absurd rfl hrs
  · cases e
    rw [dropFront_buf, List.length_drop]
    omega
  · cases e
  · rcases takeFrame_cases p d (u16 d.buf (p.headerOffset + 20)) with ⟨t, -⟩ | ⟨t, -⟩ <;>
      (cases e.trans t; rw [dropFront_buf, List.length_drop]; omega)

/-- Each record but the last costs MIN_LEN bytes of the buffer (R127). -/
theorem drain_records_length_le (p : Params) (d : Decoder) : (drain p d).2.length ≤ d.buf.length / p.minLen + 1 := by
  refine drain_induction p (P := fun d r => r.2.length ≤ d.buf.length / p.minLen + 1) ?_ ?_ d
  · intro d d' rs ht
    have hone := drainTurn_records_length_le_one p d
    rw [ht] at hone
    exact hone.trans (Nat.le_add_left 1 _)
  · intro d d' rs ht ih
    have hone := drainTurn_records_length_le_one p d
    rw [ht, again_records] at hone
    rw [List.length_append]
    by_cases hrs : rs = []
    · have hshorter := Nat.div_le_div_right (c := p.minLen) (drainTurn_again_shorter ht).le
      rw [hrs, List.length_nil]
      omega
    · have hfewer := Nat.div_le_div_right (c := p.minLen) (drainTurn_again_removes_minLen ht hrs)
      rw [Nat.add_div_right _ ((by decide : 0 < 25).trans_le (minLen_ge p))] at hfewer
      omega

/-- Settles O31: every turn that goes on shortens the buffer, and with a record by MIN_LEN. -/
theorem drainEnds : Obligations.DrainEnds := by
  refine fun p d => ⟨fun d' rs h => ?_, fun fuel hfuel => ?_, drain_records_length_le p d⟩
  · exact ⟨drainTurn_again_shorter h, drainTurn_again_removes_minLen h⟩
  · exact drainLoop_fuel p hfuel (Nat.lt_succ_self _)

/-! ## When a FEED fits (R112) -/

theorem fits_of_bufCap_none {p : Params} (h : p.bufCap = none) (n : Nat) : p.fits n = true := by
  simp [Params.fits, h]

theorem fits_iff_of_bufCap {p : Params} {cap : Nat} (h : p.bufCap = some cap) (n : Nat) : p.fits n = true ↔ n ≤ cap := by
  simp [Params.fits, h]

/-- Settles O19: FULL says that the chunk does not fit, and what a DRAIN leaves is shorter than MAX_FRAME. -/
theorem feedRefusesWhatDoesNotFit : Obligations.FeedRefusesWhatDoesNotFit := by
  refine ⟨fun s b cap hcap hk hover => ?_, fun s t b hcap hfeed hfull => ?_, ?_⟩
  · refine exec_feed_of_error (feedError_full hk ?_)
    rw [← Bool.not_eq_true, fits_iff_of_bufCap hcap]
    omega
  · have hfits := fits_of_bufCap_none hcap (s.dec.buf.length + b.length)
    simp [not_fits_of_feed_full hfeed hfull] at hfits
  · intro s t u b cap hcap hframe hk hdrain hfeed hfull
    have hparams := exec_params hdrain
    have hlen := (drainEnd_of_exec_drain hdrain).length_lt_maxFrame
    have hover := not_fits_of_feed_full hfeed hfull
    rw [hparams] at hlen hover
    rw [← Bool.not_eq_true, fits_iff_of_bufCap hcap] at hover
    omega

end Machine

end Sys2Proof

namespace Sys2Proof

namespace Machine

/-! ## Status and control (R140 to R143) -/

/-- What NOP answers and changes (R140). -/
theorem exec_nop (s : State) : exec .nop s = .next { s with tx := s.tx ++ [[0x00#8]] } := rfl

/-- RDREG answers OK and the value that the register space holds at its index (R141). -/
theorem exec_rdreg {s : State} {idx : Byte} {v : U32} (h : readReg s idx = v) :
    exec (.rdreg idx) s = .next { s with tx := s.tx ++ [0x00#8 :: be32Bits v] } := by
  subst h
  rfl

/-- What CLRCNT answers and changes (R142). -/
theorem exec_clrcnt (s : State) : exec .clrcnt s = .next
    { s with
      dec := { s.dec with cntPkt := 0, cntCsum := 0, cntOver := 0, cntFlush := 0, cntSkipb := 0 }
      tx := s.tx ++ [[0x00#8]] } := rfl

/-- What RESET answers and changes (R143). -/
theorem exec_reset (s : State) :
    exec .reset s = .next { s with dec := Decoder.reset, tx := s.tx ++ [[0x00#8]] } := rfl

theorem readReg_stat (s : State) : readReg s 0x01#8 = s.dec.stop.code.setWidth 32 := rfl

theorem readReg_len (s : State) : readReg s 0x02#8 = BitVec.ofNat 32 (min s.dec.buf.length 0xFFFFFFFF) := rfl

theorem readReg_cntPkt (s : State) : readReg s 0x03#8 = s.dec.cntPkt := rfl

theorem readReg_cntCsum (s : State) : readReg s 0x04#8 = s.dec.cntCsum := rfl

theorem readReg_cntOver (s : State) : readReg s 0x05#8 = s.dec.cntOver := rfl

theorem readReg_cntFlush (s : State) : readReg s 0x06#8 = s.dec.cntFlush := rfl

theorem readReg_cntSkipb (s : State) : readReg s 0x07#8 = s.dec.cntSkipb := rfl

/-- CAP of an infinite capacity (R31). -/
theorem readReg_cap_of_infinite {s : State} (h : s.params.bufCap = none) : readReg s 0x08#8 = 0xFFFFFFFF#32 := by
  rw [readReg_cap, capValue, h]

/-- CAP of a finite capacity (R31). -/
theorem readReg_cap_of_finite {s : State} {cap : Nat} (h : s.params.bufCap = some cap) :
    readReg s 0x08#8 = BitVec.ofNat 32 (min cap 0xFFFFFFFF) := by
  simp only [readReg_cap, capValue, h, saturate32]

/-- Settles O10: the round trip of NOP's one byte, and its arm. -/
theorem nopAnswersOk : Obligations.NopAnswersOk :=
  fun s rest => ⟨decodeEncodeRoundTrip .nop rest rfl, exec_nop s⟩

/-- Settles O11: RDREG answers what `readReg` gives, and each index reads its own register. -/
theorem rdregReadsTheRegister : Obligations.RdregReadsTheRegister := fun s =>
  ⟨fun idx rest => decodeEncodeRoundTrip (.rdreg idx) rest rfl, exec_rdreg (readReg_cfg s), exec_rdreg (readReg_stat s),
    exec_rdreg (readReg_len s), exec_rdreg (readReg_cntPkt s), exec_rdreg (readReg_cntCsum s),
    exec_rdreg (readReg_cntOver s), exec_rdreg (readReg_cntFlush s), exec_rdreg (readReg_cntSkipb s),
    fun hinf => exec_rdreg (readReg_cap_of_infinite hinf), fun _ hcap => exec_rdreg (readReg_cap_of_finite hcap),
    fun _ hreserved => exec_rdreg (readReg_reserved s hreserved)⟩

/-- Settles O13: the round trip of CLRCNT's one byte, and its arm. -/
theorem clrcntClearsTheCounters : Obligations.ClrcntClearsTheCounters :=
  fun s rest => ⟨decodeEncodeRoundTrip .clrcnt rest rfl, exec_clrcnt s⟩

/-- Settles O14: a byte `0xFF` is RESET as an opcode and data inside a FEED, by the round trips of both commands; RESET and
power-on leave the same decoder. -/
theorem resetGivesResetState : Obligations.ResetGivesResetState := by
  intro s rest
  refine ⟨decodeEncodeRoundTrip .reset rest rfl, decodeEncodeRoundTrip (.feed [0xFF#8]) rest rfl, _, exec_reset s, rfl, ?_⟩
  exact (powerOnReset_dec s).symm

end Machine

end Sys2Proof

namespace Sys2Proof

namespace Machine

/-! ## Failed commands (R160) -/

/-- A response that begins with a status other than OK is that of a command error, and that status is all of it (R71, R74). -/
theorem response_eq_error_of_bytes {r : Response} {status : Byte} {result : List Byte} (hbytes : r.bytes = status :: result)
    (hstatus : status ≠ 0x00#8) : ∃ e, r = .error e ∧ r.bytes = [status] := by
  cases r with
  | ok r =>
    obtain ⟨hok, -⟩ := List.cons.inj hbytes
    exact absurd hok.symm hstatus
  | error e =>
    obtain ⟨hcode, -⟩ := List.cons.inj hbytes
    exact ⟨e, rfl, hcode ▸ rfl⟩

/-- Settles O52: a DRAIN answers OK, and a first byte other than 00 says that the one response is an error,
with which every command leaves the decoder as it was. -/
theorem failedCommandsChangeNothing : Obligations.FailedCommandsChangeNothing := by
  refine ⟨fun s => ⟨_, _, exec_drain s, rfl⟩, fun i s t status result h htx hstatus => ?_⟩
  obtain ⟨r, d, hfail, hexec⟩ := exec_respond i s
  obtain rfl := respond_inv ((hexec s.tx).symm.trans h)
  have hbytes : r.bytes = status :: result := by simpa using htx
  obtain ⟨e, herror, halone⟩ := response_eq_error_of_bytes hbytes hstatus
  rw [hfail e herror, halone]

/-! ## Event records (R151 to R153) -/

/-- What a record says of its cause, wherever in the response it stands: a FRAMING record the bytes of a flush (R151), an OVERSIZE
record those of a header above P_MAX_DATA (R152), a CSUMERR record two checksums that differ (R153). -/
def Record.TellsCause (p : Params) : Record → Prop
  | .pkt _ => True
  | .framing flushed retained => retained = p.keep ∧ p.minLen ≤ flushed + retained
  | .oversize n discarded => maxData < n.toNat ∧ p.minLen ≤ discarded ∧ discarded ≤ p.headerOffset + 23 + n.toNat
  | .csumErr computed received n => computed ≠ received ∧ n.toNat ≤ maxData

/-- The bytes a flush removes and those it keeps are the whole buffer (R116). -/
theorem flush_tellsCause {p : Params} {d : Decoder} (hmin : p.minLen ≤ d.buf.length) :
    ∀ r ∈ (flush p d).records, r.TellsCause p := by
  have hkeep := keep_lt_minLen p
  simp only [flush_records, List.forall_mem_singleton, Record.TellsCause, true_and]
  omega

/-- An oversize skip removes at most the frame that the header announces, and of it all that is there (R121). -/
theorem skipOversize_tellsCause {p : Params} {d : Decoder} {n : Nat} (hn : n < 65536) (hmax : maxData < n)
    (hmin : p.minLen ≤ d.buf.length) : ∀ r ∈ (skipOversize p d n).records, r.TellsCause p := by
  have hword : (BitVec.ofNat 16 n).toNat = n := Nat.mod_eq_of_lt hn
  have hlen := minLen_eq p
  simp only [skipOversize_records, List.forall_mem_singleton, Record.TellsCause, hword]
  omega

/-- A whole frame is dropped only when its checksums differ (R125). -/
theorem takeFrame_tellsCause {p : Params} {d : Decoder} {n : Nat} (hmax : n ≤ maxData) :
    ∀ r ∈ (takeFrame p d n).records, r.TellsCause p := by
  have hword : n % 65536 = n := Nat.mod_eq_of_lt (by unfold maxData at hmax; omega)
  rcases takeFrame_cases p d n with ⟨e, -⟩ | ⟨e, hsum⟩ <;> rw [e]
  · simp [Record.TellsCause]
  · simpa [Record.TellsCause, hword] using ⟨hsum, hmax⟩

theorem drainTurn_tellsCause (p : Params) (d : Decoder) : ∀ r ∈ (drainTurn p d).records, r.TellsCause p := by
  rcases drainTurn_cases p d with ⟨-, e⟩ | ⟨hmin, -, e⟩ | ⟨-, off, -, -, e⟩ | ⟨hmin, -, hmax, e⟩ | ⟨-, -, -, -, e⟩ |
    ⟨-, -, hmax, -, e⟩ <;> rw [e]
  · simp
  · exact flush_tellsCause hmin
  · simp
  · exact skipOversize_tellsCause (u16_lt _ _) hmax hmin
  · simp
  · exact takeFrame_tellsCause hmax

theorem drain_tellsCause (p : Params) (d : Decoder) : ∀ r ∈ (drain p d).2, r.TellsCause p :=
  drain_of_turn (R := fun _ _ rs => ∀ r ∈ rs, r.TellsCause p) (drainTurn_tellsCause p)
    (fun hfirst hrest => List.forall_mem_append.mpr ⟨hfirst, hrest⟩) d

/-- A turn that goes on emits no FRAMING record: only a flush does, and it ends the DRAIN (R116). -/
theorem framing_not_mem_of_again {p : Params} {d d' : Decoder} {rs : List Record} (h : drainTurn p d = .again d' rs)
    (flushed retained : Nat) : .framing flushed retained ∉ rs := by
  rcases drainTurn_cases p d with ⟨-, e⟩ | ⟨-, -, e⟩ | ⟨-, off, -, -, e⟩ | ⟨-, -, -, e⟩ | ⟨-, -, -, -, e⟩ |
    ⟨-, -, -, -, e⟩ <;> rw [h] at e
  · cases e
  · cases e
  · cases e; simp
  · cases e; simp
  · cases e
  · obtain ⟨t, -⟩ | ⟨t, -⟩ := takeFrame_cases p d (u16 d.buf (p.headerOffset + 20)) <;> (cases e.trans t; simp)

/-- A turn that ends the DRAIN emits a record only when it flushes, and then that one alone (R114, R116, R122). -/
theorem records_of_stopped {p : Params} {d e : Decoder} {rs : List Record} (h : drainTurn p d = .stopped e rs) :
    rs = [] ∨ (e.stop = .flushed ∧ ∃ r, rs = [r]) := by
  rcases drainTurn_cases p d with ⟨-, t⟩ | ⟨-, -, t⟩ | ⟨-, off, -, -, t⟩ | ⟨-, -, -, t⟩ | ⟨-, -, -, -, t⟩ |
    ⟨-, -, -, -, t⟩ <;> rw [h] at t
  · cases t; exact .inl rfl
  · cases t; exact .inr ⟨rfl, _, rfl⟩
  · cases t
  · cases t
  · cases t; exact .inl rfl
  · exact absurd t.symm (takeFrame_ne_stopped p d e _ rs)

/-- What stands before an element that is not in the first list covers that list, so the second list splits at it too. -/
theorem exists_eq_append_cons_of_not_mem {α : Type} {rs rs' before after : List α} {x : α} (hx : x ∉ rs)
    (h : rs ++ rs' = before ++ x :: after) : ∃ before', rs' = before' ++ x :: after := by
  obtain ⟨before', -, hrs'⟩ | ⟨rest, hrs, hrest⟩ := List.append_eq_append_iff.mp h
  · exact ⟨before', hrs'⟩
  · cases rest with
    | nil => exact ⟨[], hrest.symm⟩
    | cons y rest =>
      obtain ⟨rfl, -⟩ := List.cons.inj hrest
      exact absurd (by simp [hrs]) hx

/-- A FRAMING record is the last of its DRAIN, which then stands at FLUSHED (R116, R151). -/
theorem drain_framing_last {p : Params} {d : Decoder} {before after : List Record} {flushed retained : Nat}
    (h : (drain p d).2 = before ++ .framing flushed retained :: after) : after = [] ∧ (drain p d).1.stop = .flushed := by
  refine drain_induction p (P := fun _ r => ∀ before, r.2 = before ++ .framing flushed retained :: after →
    after = [] ∧ r.1.stop = .flushed) ?_ ?_ d before h
  · intro d d' rs ht before h
    obtain rfl | ⟨hstop, r, rfl⟩ := records_of_stopped ht
    · simp at h
    · obtain ⟨-, hlast⟩ | ⟨-, hnil⟩ := List.singleton_eq_append_iff.mp h
      · exact ⟨(List.cons.inj hlast).2, hstop⟩
      · cases hnil
  · intro d d' rs ht ih before h
    obtain ⟨before', hrest⟩ := exists_eq_append_cons_of_not_mem (framing_not_mem_of_again ht flushed retained) h
    exact ih before' hrest

/-- Settles O34: each record of a DRAIN tells its cause, and only the flush that ends a DRAIN emits a FRAMING record. -/
theorem eventRecordsCarryTheirCause : Obligations.EventRecordsCarryTheirCause := by
  intro p d
  refine ⟨fun before after flushed retained h => ?_, fun n gone h => drain_tellsCause p d _ h,
    fun c r n h => drain_tellsCause p d _ h⟩
  obtain ⟨hlast, hstop⟩ := drain_framing_last h
  obtain ⟨hkeep, hmin⟩ : Record.TellsCause p (.framing flushed retained) := drain_tellsCause p d _ (by simp [h])
  obtain ⟨-, -, hlen, -⟩ := bufferAfterDrain p d
  exact ⟨hlast, hkeep, hmin, hstop, (hlen hstop).trans hkeep.symm⟩

end Machine

end Sys2Proof

namespace Sys2Proof

namespace Machine

/-! ## Reset (R170) -/

/-- Settles O8: power-on leaves the reset decoder and an empty port, and no command changes the parameters. -/
theorem powerOnResetsTheBlock : Obligations.PowerOnResetsTheBlock :=
  ⟨fun _ => rfl, fun _ _ _ => exec_params⟩

/-! ## Markers in parts of a stream (R115) -/

theorem markerAt_append_left {s : List Byte} {i : Nat} (h : i + 2 ≤ s.length) (t : List Byte) :
    MarkerAt (s ++ t) i ↔ MarkerAt s i := by
  have hlonger : i + 2 ≤ (s ++ t).length := h.trans (by simp)
  simp only [MarkerAt, h, hlonger, byteAt_append_left (Nat.lt_of_succ_lt h), byteAt_append_left h]

theorem markerAt_drop (s : List Byte) (n i : Nat) : MarkerAt (s.drop n) i ↔ MarkerAt s (n + i) := by
  have hlen : i + 2 ≤ s.length - n ↔ n + i + 2 ≤ s.length := by omega
  simp [MarkerAt, byteAt, hlen, Nat.add_assoc]

/-- Bytes behind a buffer do not change its first marker. -/
theorem firstMarker_append {s : List Byte} {i : Nat} (h : firstMarker s = some i) (t : List Byte) :
    firstMarker (s ++ t) = some i := by
  have hlt := firstMarker_lt h
  rw [firstMarker_eq_some_iff] at h ⊢
  obtain ⟨hmark, hleast⟩ := h
  exact ⟨(markerAt_append_left hlt t).mpr hmark, fun j hj => (markerAt_append_left (by omega) t).not.mpr (hleast j hj)⟩

/-- Dropping bytes at which no marker starts moves the first marker forward by as many. -/
theorem firstMarker_eq_map_drop {s : List Byte} {n : Nat} (h : ∀ j < n, ¬MarkerAt s j) :
    firstMarker s = (firstMarker (s.drop n)).map (n + ·) := by
  cases hdrop : firstMarker (s.drop n) with
  | none =>
    rw [firstMarker_eq_none_iff] at hdrop
    refine firstMarker_eq_none_iff.mpr fun j hmark => ?_
    obtain ⟨i, rfl⟩ := Nat.exists_eq_add_of_le (Nat.le_of_not_lt fun hj => h j hj hmark)
    exact hdrop i ((markerAt_drop s n i).mpr hmark)
  | some i =>
    obtain ⟨hmark, hleast⟩ := firstMarker_eq_some_iff.mp hdrop
    refine firstMarker_eq_some_iff.mpr ⟨(markerAt_drop s n i).mp hmark, fun j hj hj' => ?_⟩
    obtain ⟨k, rfl⟩ := Nat.exists_eq_add_of_le (Nat.le_of_not_lt fun hlt => h j hlt hj')
    exact hleast k (Nat.lt_of_add_lt_add_left hj) ((markerAt_drop s n k).mpr hj')

/-! ## The packets of a byte string -/

/-- The packets that a DRAIN of the byte string `s` delivers. -/
def delivered (p : Params) (s : List Byte) : List Packet := packetsOf (drain p { Decoder.reset with buf := s }).2

/-- What a DRAIN delivers depends on the buffer alone. -/
theorem packetsOf_drain (p : Params) (d : Decoder) : packetsOf (drain p d).2 = delivered p d.buf :=
  congrArg packetsOf (drain_sameButCounters p d { Decoder.reset with buf := d.buf } rfl).1

theorem delivered_of_short {p : Params} {s : List Byte} (h : s.length < p.minLen) : delivered p s = [] := by
  rw [delivered, drain_short h]
  rfl

/-- Without a marker nothing is delivered (R114, R116). -/
theorem delivered_of_firstMarker_none {p : Params} {s : List Byte} (h : firstMarker s = none) : delivered p s = [] := by
  rcases Nat.lt_or_ge s.length p.minLen with hlen | hlen
  · exact delivered_of_short hlen
  · rw [delivered, drain_stopped (drainTurn_flush hlen h)]
    rfl

/-- The bytes before the first marker deliver nothing (R118). -/
theorem delivered_drop_firstMarker (p : Params) {s : List Byte} {off : Nat} (h : firstMarker s = some off) :
    delivered p (s.drop off) = delivered p s := by
  rcases Nat.lt_or_ge s.length p.minLen with hlen | hlen
  · have hshorter : (s.drop off).length < p.minLen := by rw [List.length_drop]; omega
    rw [delivered_of_short hlen, delivered_of_short hshorter]
  rcases Nat.eq_zero_or_pos off with rfl | hoff
  · rfl
  · rw [delivered.eq_def p s, drain_again (drainTurn_skipPrefix hlen h hoff), List.nil_append, packetsOf_drain]
    rfl

/-- Bytes at the front at which no marker starts deliver nothing, whether a flush or a later skip removes them. -/
theorem delivered_drop (p : Params) {s : List Byte} {n : Nat} (h : ∀ j < n, ¬MarkerAt s j) :
    delivered p (s.drop n) = delivered p s := by
  have hfirst := firstMarker_eq_map_drop h
  cases hdrop : firstMarker (s.drop n) with
  | none => rw [delivered_of_firstMarker_none hdrop, delivered_of_firstMarker_none (by rw [hfirst, hdrop]; rfl)]
  | some i =>
    have hs : firstMarker s = some (n + i) := by rw [hfirst, hdrop]; rfl
    rw [← delivered_drop_firstMarker p hdrop, ← delivered_drop_firstMarker p hs, List.drop_drop]

/-! ## A turn with more bytes behind the buffer -/

/-- A whole frame is taken in the same way, whatever follows it. -/
theorem takeFrame_append {p : Params} {d d' : Decoder} {n : Nat} {rs : List Record}
    (hwhole : p.headerOffset + 23 + n ≤ d.buf.length) (h : takeFrame p d n = .again d' rs) (t : List Byte) :
    takeFrame p (d.append t) n = .again (d'.append t) rs := by
  simp only [takeFrame, append_buf, List.take_append_of_le_length hwhole] at h ⊢
  split_ifs at h ⊢ <;> cases h <;> simp [Decoder.append, Decoder.dropFront, List.drop_append_of_le_length hwhole]

/-- An OVERSIZE record that `skipsWhole` admits says that the whole frame was there (R176). -/
theorem whole_of_skipsWhole {p : Params} {n len : Nat} (hn : n < 65536)
    (h : skipsWhole p [.oversize (BitVec.ofNat 16 n) (min (p.headerOffset + 23 + n) len)] = true) :
    p.headerOffset + 23 + n ≤ len := by
  have hword : (BitVec.ofNat 16 n).toNat = n := Nat.mod_eq_of_lt hn
  simp only [skipsWhole, List.all_cons, List.all_nil, Bool.and_true, beq_iff_eq, hword] at h
  omega

/-- A turn that goes on, and skips no partial frame, does the same with more bytes behind the buffer. -/
theorem drainTurn_append {p : Params} {d d' : Decoder} {rs : List Record} (h : drainTurn p d = .again d' rs)
    (hskip : skipsWhole p rs = true) (t : List Byte) : drainTurn p (d.append t) = .again (d'.append t) rs := by
  have hmin := minLen_eq p
  have hlonger : d.buf.length ≤ (d.append t).buf.length := by simp
  have hn (hlen : p.minLen ≤ d.buf.length) :
      u16 (d.append t).buf (p.headerOffset + 20) = u16 d.buf (p.headerOffset + 20) := u16_append_left (by omega)
  rcases drainTurn_cases p d with ⟨-, e⟩ | ⟨-, -, e⟩ | ⟨hlen, off, hmark, hoff, e⟩ | ⟨hlen, hmark, hover, e⟩ |
    ⟨-, -, -, -, e⟩ | ⟨hlen, hmark, hmax, hwhole, e⟩ <;> rw [h] at e
  · cases e
  · cases e
  · cases e
    have hin := firstMarker_lt hmark
    rw [drainTurn_skipPrefix (hlen.trans hlonger) (firstMarker_append hmark t) hoff]
    simp [skipPrefix, Decoder.append, Decoder.dropFront, List.drop_append_of_le_length (Nat.le_of_succ_le hin.le)]
  · cases e
    have hwhole := whole_of_skipsWhole (u16_lt _ _) hskip
    have hwhole' := hwhole.trans hlonger
    rw [append_buf, List.length_append] at hwhole'
    rw [drainTurn_skipOversize (hlen.trans hlonger) (firstMarker_append hmark t) (by rwa [hn hlen]), hn hlen]
    simp [skipOversize, Nat.min_eq_left hwhole, Nat.min_eq_left hwhole', Decoder.append, Decoder.dropFront,
      List.drop_append_of_le_length hwhole]
  · cases e
  · rw [drainTurn_of_whole_frame (firstMarker_append hmark t) (hn hlen) hmax (hwhole.trans hlonger)]
    exact takeFrame_append hwhole e.symm t

/-! ## Chunks (R175, R176, R178) -/

theorem skipsWhole_append (p : Params) (rs rs' : List Record) :
    skipsWhole p (rs ++ rs') = (skipsWhole p rs && skipsWhole p rs') :=
  List.all_append

/-- If `s` ends in a marker byte and `t` begins with one, a flush keeps the last byte of `s` (R175). -/
def SeamKept (p : Params) (s t : List Byte) : Prop :=
  s.getLast? = some markerByte → t.head? = some markerByte → p.retainTail = true

theorem SeamKept.drop {p : Params} {s t : List Byte} (h : SeamKept p s t) (n : Nat) : SeamKept p (s.drop n) t := by
  intro hlast
  rw [List.getLast?_drop] at hlast
  split at hlast
  · cases hlast
  · exact h hlast

theorem seamKept_of_not_splitsMarker {p : Params} {d : Decoder} {t : List Byte} (h : splitsMarker p d t = false)
    (hstop : (drain p d).1.stop = .flushed) : SeamKept p d.buf t := by
  intro hlast hhead
  simpa [splitsMarker, hstop, hlast, hhead] using h

/-- A marker that starts at the last byte of `s` is that byte and the first of `t`. -/
theorem marker_across_seam {s t : List Byte} {i : Nat} (hi : i + 1 = s.length) (h : MarkerAt (s ++ t) i) :
    s.getLast? = some markerByte ∧ t.head? = some markerByte := by
  obtain ⟨hlen, hfst, hsnd⟩ := h
  rw [List.length_append] at hlen
  rw [byteAt_append_left (by omega)] at hfst
  rw [byteAt_append_right (by omega), hi, Nat.sub_self] at hsnd
  constructor
  · rw [List.getLast?_eq_getElem?, ← hi, Nat.add_sub_cancel, ← hfst]
    simp [byteAt, show i < s.length by omega]
  · cases t with
    | nil => simp at hlen; omega
    | cons b t => exact congrArg some hsnd

/-- No marker of the stream starts in the bytes that a flush removes, unless it is split (R115, R175). -/
theorem not_markerAt_flushed {p : Params} {s t : List Byte} (hmark : firstMarker s = none) (hseam : SeamKept p s t) :
    ∀ j < s.length - p.keep, ¬MarkerAt (s ++ t) j := by
  intro j hj h
  rcases Nat.lt_or_ge (j + 1) s.length with hin | hlast
  · exact firstMarker_eq_none_iff.mp hmark j ((markerAt_append_left hin t).mp h)
  · obtain ⟨hs, ht⟩ := marker_across_seam (by omega) h
    have hkeep := keep_of_retainTail (hseam hs ht)
    omega

/-- A turn that ends the DRAIN takes nothing from what a later DRAIN delivers. -/
theorem delivered_append_of_stopped {p : Params} {d e : Decoder} {rs : List Record} {t : List Byte}
    (h : drainTurn p d = .stopped e rs) (hseam : e.stop = .flushed → SeamKept p d.buf t) :
    packetsOf rs ++ delivered p (e.buf ++ t) = delivered p (d.buf ++ t) := by
  rcases drainTurn_cases p d with ⟨-, ht⟩ | ⟨-, hmark, ht⟩ | ⟨-, off, -, -, ht⟩ | ⟨-, -, -, ht⟩ | ⟨-, -, -, -, ht⟩ |
    ⟨-, -, -, -, ht⟩ <;> rw [h] at ht
  · cases ht; rfl
  · cases ht
    have hdrop := delivered_drop p (not_markerAt_flushed hmark (hseam rfl))
    rwa [List.drop_append_of_le_length (Nat.sub_le _ _)] at hdrop
  · cases ht
  · cases ht
  · cases ht; rfl
  · exact absurd ht.symm (takeFrame_ne_stopped p d e _ rs)

/-- Without the two hazards, a DRAIN and a later one of what it left with more bytes deliver together what one DRAIN of all
the bytes does. -/
theorem delivered_append {p : Params} {d : Decoder} {t : List Byte}
    (hseam : (drain p d).1.stop = .flushed → SeamKept p d.buf t) (hskip : skipsWhole p (drain p d).2 = true) :
    packetsOf (drain p d).2 ++ delivered p ((drain p d).1.buf ++ t) = delivered p (d.buf ++ t) := by
  refine drain_induction p (P := fun d r => (r.1.stop = .flushed → SeamKept p d.buf t) → skipsWhole p r.2 = true →
    packetsOf r.2 ++ delivered p (r.1.buf ++ t) = delivered p (d.buf ++ t)) ?_ ?_ d hseam hskip
  · intro d e rs h hseam _
    exact delivered_append_of_stopped h hseam
  · intro d d' rs h ih hseam hskip
    obtain ⟨n, -, -, hdrop⟩ := drainTurn_again_drops h
    obtain ⟨hfirst, hrest⟩ : skipsWhole p rs = true ∧ skipsWhole p (drain p d').2 = true := by
      simpa only [skipsWhole_append, Bool.and_eq_true] using hskip
    have hlater := ih (fun hstop => hdrop ▸ (hseam hstop).drop n) hrest
    calc packetsOf (rs ++ (drain p d').2) ++ delivered p ((drain p d').1.buf ++ t)
        = packetsOf rs ++ delivered p (d'.append t).buf := by
          rw [packetsOf_append, List.append_assoc, hlater, append_buf]
      _ = delivered p (d.append t).buf := by
          rw [← packetsOf_drain, ← packetsOf_drain, drain_again (drainTurn_append h hfirst t), packetsOf_append]

theorem hazardFree_cons {p : Params} {d : Decoder} {b : List Byte} {bs : List (List Byte)} :
    hazardFree p d (b :: bs) = true ↔ splitsMarker p (d.append b) bs.flatten = false ∧
      skipsWhole p (drain p (d.append b)).2 = true ∧ hazardFree p (drain p (d.append b)).1 bs = true := by
  simp [hazardFree, and_assoc]

/-- Settles O37: chunk by chunk, the DRAIN after a chunk and one DRAIN of all that comes later deliver what one DRAIN of the
whole stream does. -/
theorem chunkingKeepsThePackets : Obligations.ChunkingKeepsThePackets := by
  intro p d b bs h
  induction bs generalizing d b with
  | nil => simp [drainChunks]
  | cons c cs ih =>
    obtain ⟨hsplit, hskip, hlater⟩ := hazardFree_cons.mp h
    have hrest : packetsOf (drainChunks p (drain p (d.append b)).1 (c :: cs)).2 =
        delivered p ((drain p (d.append b)).1.buf ++ (c :: cs).flatten) := (ih _ c hlater).trans (packetsOf_drain p _)
    calc packetsOf (drainChunks p d (b :: c :: cs)).2
        = packetsOf (drain p (d.append b)).2 ++ delivered p ((drain p (d.append b)).1.buf ++ (c :: cs).flatten) := by
          rw [drainChunks, packetsOf_append, hrest]
      _ = delivered p ((d.append b).buf ++ (c :: cs).flatten) :=
          delivered_append (seamKept_of_not_splitsMarker hsplit) hskip
      _ = packetsOf (drain p (d.append (b :: c :: cs).flatten)).2 := by
          rw [packetsOf_drain, append_buf, append_buf, List.append_assoc, ← List.flatten_cons]

end Machine

end Sys2Proof
